-- ==== Sys2Proof/Word.lean ====
section
/-! DEFINITION. The two word sizes of the machine (spec/00_scope.md rules R7 and R9). -/

namespace Sys2Proof

/-- A `u8` of rule R9: data, the 8-bit registers, one memory byte. -/
abbrev Byte := BitVec 8

/-- A `u16` of rule R9: the program counter and every address. -/
abbrev Word := BitVec 16

end Sys2Proof
end

