-- ==== Sys2Proof/Config.lean ====
section
/-! DEFINITION. What one implementation fixes (spec/00_scope.md rule R8, spec/10_state.md rule R30) and the free
byte of the I/O stub. The configuration is carried in `State`, so a statement about every state ranges over
every configuration. -/

namespace Sys2Proof

/-- `UNDEF_POLICY` (rules R8 and R202): what the 245 undefined opcode bytes do. -/
inductive UndefPolicy where
  | fault
  | nop
  deriving DecidableEq, Repr

/-- The configuration that construction fixes and no instruction writes (rule R30). The ROM bytes themselves
stand in the memory list, at their bus addresses. -/
structure Config where
  undefPolicy : UndefPolicy
  /-- `ROM_LEN`, 1 to 0x8000 (rules R8 and R56). -/
  romLen : Nat
  deriving DecidableEq, Repr

/-- `draw()` of rules R11 and R57: the byte the k-th read of the I/O stub returns, any byte under no law.
No body: nothing can prove a value of it. DESIGN CHOICE (log 4), safe within a run; log 16 says what a fault does to
the numbering. -/
opaque Config.ioDraw : Nat → Byte

end Sys2Proof
end

