-- ==== Sys2Proof/Syntax.lean ====
section
/-! DEFINITION. The instructions: one constructor per row of spec/opcode_table.json, and the two name sets its
rows pair (spec/00_scope.md rule R14). -/

namespace Sys2Proof

/-- Operation kind (rule R14). -/
inductive Kind where
  | lda | ldx | ldy | sta | txs | inx | dey | jmp | bne | sei | nop
  deriving DecidableEq, Repr

/-- Addressing mode (rules R14 and R81). -/
inductive Mode where
  | implied | immediate | relative | absolute | absoluteX
  deriving DecidableEq, Repr

/-- One constructor per row of the opcode table (rule R86) and one for each of the table's two fallback rows,
which keep the undefined opcode byte they were decoded from (rules R203 and R204; log 10). Only the pairs of rule R89
can be spelled. -/
inductive Instr where
  | jmpAbs (target : Word)
  | sei
  | dey
  | staAbs (addr : Word)
  | txs
  | ldyImm (v : Byte)
  | ldxImm (v : Byte)
  | ldaImm (v : Byte)
  | ldaAbsX (base : Word)
  | bneRel (off : Byte)
  | inx
  | nop (op : Byte)
  | unimplemented (op : Byte)
  deriving DecidableEq, Repr

end Sys2Proof
end

