-- ==== Sys2Proof/Decode.lean ====
section
/-! DEFINITION. The opcode decoder of spec/30_encoding.md, total on any bytes, and the encoder beside it. -/

namespace Sys2Proof

/-! ### Bytes of a word (rules R9 and R61) -/

/-- `lo(a) = a[7:0]`. -/
def loByte (w : Word) : Byte := w.extractLsb' 0 8

/-- `hi(a) = a[15:8]`, the page of an address. -/
def hiByte (w : Word) : Byte := w.extractLsb' 8 8

/-- `(h : l) = h * 256 + l`, from bytes in stream order: low byte first (rules R61 and R84). -/
def leWord (l h : Byte) : Word := h ++ l

/-! ### Formats (rules R81 and R83) -/

/-- How many operand bytes a mode consumes (rules R81 and R83). -/
def Mode.operandBytes : Mode → Nat
  | .implied => 0
  | .immediate => 1
  | .relative => 1
  | .absolute => 2
  | .absoluteX => 2

/-- Length in bytes: the opcode and its operand bytes (rule R83). -/
def Mode.length (m : Mode) : Nat := 1 + m.operandBytes

/-- The kind of an instruction (rule R86). An undefined opcode that raises has none (rule R104). -/
def Instr.kind? : Instr → Option Kind
  | .jmpAbs _ => some .jmp
  | .sei => some .sei
  | .dey => some .dey
  | .staAbs _ => some .sta
  | .txs => some .txs
  | .ldyImm _ => some .ldy
  | .ldxImm _ => some .ldx
  | .ldaImm _ => some .lda
  | .ldaAbsX _ => some .lda
  | .bneRel _ => some .bne
  | .inx => some .inx
  | .nop _ => some .nop
  | .unimplemented _ => none

/-- The addressing mode of an instruction (rule R86; the table's two fallback rows are Implied and consume no operand
byte, rules R203 and R204). -/
def Instr.mode : Instr → Mode
  | .jmpAbs _ => .absolute
  | .sei => .implied
  | .dey => .implied
  | .staAbs _ => .absolute
  | .txs => .implied
  | .ldyImm _ => .immediate
  | .ldxImm _ => .immediate
  | .ldaImm _ => .immediate
  | .ldaAbsX _ => .absoluteX
  | .bneRel _ => .relative
  | .inx => .implied
  | .nop _ => .implied
  | .unimplemented _ => .implied

/-- The length of an instruction (rule R83): by its mode, but an undefined opcode that raises has no kind and no
length. -/
def Instr.length? (i : Instr) : Option Nat :=
  match i.kind? with
  | some _ => some i.mode.length
  | none => none

/-- How many instruction-stream bytes the fetch of an instruction reads: its length, and for an undefined opcode that
raises the opcode byte alone (rule R203), which is no length of an instruction (log 10). -/
def Instr.streamBytes (i : Instr) : Nat := i.mode.length

/-! ### The opcode table (rule R86) -/

/-- What an opcode byte asks the resolver to fetch: nothing, one byte, or a little-endian word. -/
inductive OpcodeForm where
  | whole (i : Instr)
  | byte (mk : Byte → Instr)
  | word (mk : Word → Instr)

/-- The table of rule R86, row by row in its order. It is the only definition of the encoding (rule R82). -/
def opcodeTable : List (Byte × OpcodeForm) :=
  [ (0x4C#8, .word .jmpAbs),
    (0x78#8, .whole .sei),
    (0x88#8, .whole .dey),
    (0x8D#8, .word .staAbs),
    (0x9A#8, .whole .txs),
    (0xA0#8, .byte .ldyImm),
    (0xA2#8, .byte .ldxImm),
    (0xA9#8, .byte .ldaImm),
    (0xBD#8, .word .ldaAbsX),
    (0xD0#8, .byte .bneRel),
    (0xE8#8, .whole .inx) ]

/-- The row of an opcode byte in a table, if it has one. -/
def lookupOpcode (op : Byte) : List (Byte × OpcodeForm) → Option OpcodeForm
  | [] => none
  | row :: rows => if op = row.1 then some row.2 else lookupOpcode op rows

/-- The eleven defined opcode bytes; every other byte is undefined (rule R87). -/
def definedOpcode (op : Byte) : Bool := (opcodeTable.map Prod.fst).contains op

/-- `Decode` of rule R104: the table's row, or the undefined-opcode policy's answer. It reads no register and
makes no bus access. -/
def decodeOpcode (pol : UndefPolicy) (op : Byte) : OpcodeForm :=
  match lookupOpcode op opcodeTable with
  | some form => form
  | none =>
    match pol with
    | .nop => .whole (.nop op)
    | .fault => .whole (.unimplemented op)

/-- Why a byte string is not the start of an instruction. A step never meets either: it fetches exactly the
bytes the opcode asks for. -/
inductive DecodeReject where
  /-- No byte at all. -/
  | noBytes
  /-- The operand bytes of this opcode are missing. -/
  | truncated (op : Byte)
  deriving DecidableEq, Repr

/-- Decode the first instruction of a byte string and return the bytes after it (rules R80, R81, R84). -/
def decode (pol : UndefPolicy) : List Byte → Except DecodeReject (Instr × List Byte)
  | [] => .error .noBytes
  | op :: rest =>
    match decodeOpcode pol op, rest with
    | .whole i, rest => .ok (i, rest)
    | .byte mk, b :: rest => .ok (mk b, rest)
    | .byte _, [] => .error (.truncated op)
    | .word mk, l :: h :: rest => .ok (mk (leWord l h), rest)
    | .word _, [] => .error (.truncated op)
    | .word _, [_] => .error (.truncated op)

/-! ### The encoder -/

/-- The bytes of an instruction (rules R81 and R86): opcode, then the operand bytes, low byte first. -/
def encode : Instr → List Byte
  | .jmpAbs target => [0x4C#8, loByte target, hiByte target]
  | .sei => [0x78#8]
  | .dey => [0x88#8]
  | .staAbs addr => [0x8D#8, loByte addr, hiByte addr]
  | .txs => [0x9A#8]
  | .ldyImm v => [0xA0#8, v]
  | .ldxImm v => [0xA2#8, v]
  | .ldaImm v => [0xA9#8, v]
  | .ldaAbsX base => [0xBD#8, loByte base, hiByte base]
  | .bneRel off => [0xD0#8, off]
  | .inx => [0xE8#8]
  | .nop op => [op]
  | .unimplemented op => [op]

/-! ### Words as spec/opcode_table.json numbers them -/

/-- The longest instruction's three bytes, first byte lowest, every bit above `nbits` zero. -/
def tableBytes (nbits w : Nat) : List Byte :=
  let v := w % 2 ^ nbits
  [BitVec.ofNat 8 v, BitVec.ofNat 8 (v / 256), BitVec.ofNat 8 (v / 65536)]

/-- The instruction the decoder reads from a table word, under the spec's default `UNDEF_POLICY = fault`
(rule R8; log 13). -/
def decodeTableWord (nbits w : Nat) : Option Instr :=
  match decode .fault (tableBytes nbits w) with
  | .ok (i, _) => some i
  | .error _ => none

end Sys2Proof
end

