-- ==== Sys2Proof/Machine/State.lean ====
section
/-! DEFINITION. The machine's state as plain data (spec/10_state.md), its faults (spec/60_exceptions.md rules R220
to R223) and the state right after reset. -/

namespace Sys2Proof.Machine

/-- The eight status flags (rules R26 and R27). -/
structure Flags where
  n : Bool
  v : Bool
  /-- Reserved: true in every state of the machine (rule R28; log 11). -/
  r : Bool
  b : Bool
  d : Bool
  i : Bool
  z : Bool
  c : Bool
  deriving DecidableEq, Repr, Inhabited

/-- What `inspect_registers()` returns: the register file of rule R20 (rule R241). -/
structure RegisterFile where
  a : Byte
  x : Byte
  y : Byte
  sp : Byte
  pc : Word
  p : Flags
  deriving DecidableEq, Repr, Inhabited

/-- The bus access a fault reports (rule R221). -/
inductive Access where
  | fetch
  | read
  | write
  deriving DecidableEq, Repr

/-- The machine's faults (rule R220): each ends the step and the run (rule R226). -/
inductive Fault where
  /-- Raised by an instruction fetch, the data read of LDA abs,X, the data write of STA abs, and the vector
  read of `reset()` (`pc0` absent there), at an address outside every region or past the ROM image (rule R221).
  Safe: it is the machine's own fault. -/
  | unmappedAddress (address : Word) (access : Access) (pc0 : Option Word)
  /-- Raised by STA abs to 0x8000 to 0xFFFF (rule R222). Safe: it is the machine's own fault. -/
  | romWrite (address : Word) (pc0 : Word)
  /-- Raised by an undefined opcode byte under `UNDEF_POLICY = fault` (rule R223). Safe: it is the machine's own
  fault. -/
  | unimplementedOpcode (opcode : Byte) (pc0 : Word)
  deriving DecidableEq, Repr

/-- Why the model makes no step. -/
inductive Refusal where
  /-- Raised by an arm of `exec` that has no meaning yet; no arm raises it now. Safe: nothing can be proved of a
  next state. -/
  | notModelled (mnemonic : String)
  /-- Raised by `step` when a fault is recorded: the core has no further step (rules R103 and R226; log 6). Safe:
  no next state exists. -/
  | alreadyFaulted
  deriving DecidableEq, Repr

/-- Stored bytes by bus address: RAM and ROM bytes in one list, addresses strictly rising, no entry equal to what
an unlisted address reads as. -/
abbrev Memory := List Host.Cell

/-- Everything the spec gives the machine (rules R20, R26, R30, R31, R32), and two fields of the model's own. -/
structure State where
  a : Byte
  x : Byte
  y : Byte
  sp : Byte
  /-- At the start of a step, the address of the opcode byte (rule R24). -/
  pc : Word
  p : Flags
  /-- RAM and the ROM image (rules R31, R55, R56). -/
  mem : Memory
  /-- Fixed at construction (rule R30). -/
  cfg : Config
  /-- The fault record (rules R32 and R220). -/
  fault : Option Fault
  /-- The model's own: how many I/O-stub draws the completed steps took (logs 4 and 16). -/
  draws : Nat
  /-- The model's own: the count the last completed `step()` returned (rules R106 and R131; log 5). -/
  cycles : Option Nat
  deriving DecidableEq, Repr

/-- One step's outcome on this machine. -/
abbrev Result := Host.Outcome State Fault Refusal

/-- The flags after construction and after `reset()`: all false but the reserved one (rules R34 and R35). -/
def Flags.initial : Flags :=
  { n := false, v := false, r := true, b := false, d := false, i := false, z := false, c := false }

/-- The machine after construction and `reset()` (rules R34, R35, R250), with RAM and a ROM image of 0x8000 bytes
all zero (logs 2 and 3), so that the vector holds 0x0000, and the default `UNDEF_POLICY` (log 1). -/
def State.reset : State :=
  { a := 0x00#8
    x := 0x00#8
    y := 0x00#8
    sp := 0x00#8
    pc := 0x0000#16
    p := Flags.initial
    mem := []
    cfg := { undefPolicy := .fault, romLen := 0x8000 }
    fault := none
    draws := 0
    cycles := none }

end Sys2Proof.Machine
end

