-- ==== Sys2Proof/Machine/Alu.lean ====
section
/-! DEFINITION. The alu_core: exactly four operations, all modular (spec/40_step_and_operands.md rule R119). -/

namespace Sys2Proof.Machine

/-- `(v + 1) mod 256`. -/
def inc8 (v : Byte) : Byte := v + 1#8

/-- `(v - 1) mod 256`. -/
def dec8 (v : Byte) : Byte := v - 1#8

/-- `(base + zext_16(x)) mod 65536`. -/
def addx16 (base : Word) (x : Byte) : Word := base + x.zeroExtend 16

/-- `(base + sext_16(off)) mod 65536`. -/
def addrel16 (base : Word) (off : Byte) : Word := base + off.signExtend 16

end Sys2Proof.Machine
end

