-- ==== Sys2Proof/Machine/Operands.lean ====
section
/-! DEFINITION. The addressing-mode resolver (spec/40_step_and_operands.md rules R107 to R114): from the operand
bytes, already fetched and assembled by the decoder, to an operand with its page-crossed flag. -/

namespace Sys2Proof.Machine

/-- The result of resolution (rules R14 and R107). -/
inductive Operand where
  | none
  | imm (v : Byte)
  | addr (ea : Word) (crossed : Bool)
  deriving DecidableEq, Repr

/-- The page-crossed flag; only an address operand has one set. -/
def Operand.crossed : Operand → Bool
  | .none => false
  | .imm _ => false
  | .addr _ c => c

/-- Whether index arithmetic or branching changed the high byte (rules R14, R112, R114). -/
def pageCrossed (ea base : Word) : Bool := hiByte ea != hiByte base

/-- Rule R110. -/
def resolveImplied : Operand := .none

/-- Rule R111. -/
def resolveImmediate (v : Byte) : Operand := .imm v

/-- Rule R112; `base` is the PC after the offset byte (D5). -/
def resolveRelative (base : Word) (off : Byte) : Operand :=
  .addr (addrel16 base off) (pageCrossed (addrel16 base off) base)

/-- Rule R113: never flags a page crossing. -/
def resolveAbsolute (ea : Word) : Operand := .addr ea false

/-- Rule R114; the sum wraps at 16 bits (D24). -/
def resolveAbsoluteX (base : Word) (x : Byte) : Operand :=
  .addr (addx16 base x) (pageCrossed (addx16 base x) base)

end Sys2Proof.Machine
end

