-- ==== Sys2Proof/Machine/Cycles.lean ====
section
/-! DEFINITION. The cycle_accountant (spec/40_step_and_operands.md rules R125 to R130). -/

namespace Sys2Proof.Machine

/-- `BASE` (rule R126). LDA, BNE and JMP follow from the source's timing properties; the other values are the
spec's decision D4 (log 14). -/
def baseCost : Kind → Nat
  | .jmp => 1
  | .lda => 2
  | .bne => 2
  | .ldx => 2
  | .ldy => 2
  | .sta => 2
  | .txs => 2
  | .inx => 2
  | .dey => 2
  | .sei => 2
  | .nop => 2

/-- `MODE_COST` (rule R127). -/
def modeCost : Mode → Nat
  | .implied => 0
  | .immediate => 0
  | .relative => 0
  | .absolute => 2
  | .absoluteX => 2

/-- The kinds of the load/store surcharge (rule R128). -/
def isLoadStore : Kind → Bool
  | .lda => true
  | .ldx => true
  | .ldy => true
  | .sta => true
  | .txs => false
  | .inx => false
  | .dey => false
  | .jmp => false
  | .bne => false
  | .sei => false
  | .nop => false

/-- The modes of the load/store surcharge (rule R125). -/
def isIndexedOrRelative : Mode → Bool
  | .absoluteX => true
  | .relative => true
  | .implied => false
  | .immediate => false
  | .absolute => false

/-- `Cycles(kind, mode, operand, taken)` (rule R125): base, mode, the load/store page surcharge (R128) and the
branch surcharges (R129). -/
def cycleCost (k : Kind) (m : Mode) (o : Operand) (taken : Bool) : Nat :=
  baseCost k + modeCost m
    + (if isLoadStore k && isIndexedOrRelative m && o.crossed then 1 else 0)
    + (if k == .bne && taken then 1 + (if o.crossed then 1 else 0) else 0)

end Sys2Proof.Machine
end

