-- ==== Sys2Proof/Machine/Flags.lean ====
section
/-! DEFINITION. The status_flag_generator (spec/40_step_and_operands.md rules R120 to R122) and the snapshot byte of
the flags (spec/10_state.md rule R29). -/

namespace Sys2Proof.Machine

/-- `FLAG_KINDS` (rule R121). TXS is one of them here (C3). -/
def producesFlagResult : Kind → Bool
  | .lda => true
  | .ldx => true
  | .ldy => true
  | .txs => true
  | .inx => true
  | .dey => true
  | .sta => false
  | .jmp => false
  | .bne => false
  | .sei => false
  | .nop => false

/-- `P.N <- result[7]`, `P.Z <- (result = 0)`, and nothing else (rules R120 and R122). -/
def setNZ (result : Byte) (p : Flags) : Flags :=
  { p with n := result.msb, z := result == 0#8 }

/-- The update stage of a step (rule R102): only a kind that produces a flag-result changes N and Z. Other kinds
hand over no result. -/
def updateFlags (k : Kind) (result : Option Byte) (p : Flags) : Flags :=
  match producesFlagResult k, result with
  | true, some r => setNZ r p
  | true, none => p
  | false, _ => p

/-- `N<<7 | V<<6 | R<<5 | B<<4 | D<<3 | I<<2 | Z<<1 | C` (rule R29, D13). No instruction sees it. -/
def packFlags (p : Flags) : Byte :=
  BitVec.ofBool p.n ++ BitVec.ofBool p.v ++ BitVec.ofBool p.r ++ BitVec.ofBool p.b ++ BitVec.ofBool p.d
    ++ BitVec.ofBool p.i ++ BitVec.ofBool p.z ++ BitVec.ofBool p.c

end Sys2Proof.Machine
end

