-- ==== Sys2Proof/Machine/Ops.lean ====
section
/-! DEFINITION. The operations the meanings share: memory, the bus (spec/20_memory.md), instruction fetch, the two
ends of a step (spec/40_step_and_operands.md rule R102), and taking a fault (spec/60_exceptions.md). -/

namespace Sys2Proof.Machine

/-! ### Stored bytes -/

/-- What an address with no entry in the list reads as: the content of a blank RAM or ROM byte. The spec gives
none (`RAM_INIT` and `ROM` are OPEN): DESIGN CHOICE (logs 2 and 3), unsafe for a claim about `State.reset`'s
memory, harmless for one about every memory. -/
def unlistedByte : Byte := 0x00#8

/-- The stored byte at an address. -/
def Memory.read : Memory → Nat → Byte
  | [], _ => unlistedByte
  | c :: m, k => if c.1 = k then c.2 else Memory.read m k

/-- Store a byte, keeping the canonical form: sorted, and no entry that says what an unlisted address reads as. -/
def Memory.write : Memory → Nat → Byte → Memory
  | [], k, v => if v = unlistedByte then [] else [(k, v)]
  | c :: m, k, v =>
    if k < c.1 then
      if v = unlistedByte then c :: m else (k, v) :: c :: m
    else if k = c.1 then
      if v = unlistedByte then m else (k, v) :: m
    else c :: Memory.write m k v

/-- The canonical form: addresses strictly rising, no entry equal to an unlisted byte. -/
def Memory.wf : Memory → Bool
  | [] => true
  | c :: m => (c.2 != unlistedByte) && m.all (fun d => decide (c.1 < d.1)) && Memory.wf m

/-- Store a run of bytes at rising addresses. -/
def Memory.load : Memory → Nat → List Byte → Memory
  | m, _, [] => m
  | m, base, b :: bs => Memory.load (Memory.write m base b) (base + 1) bs

/-! ### The memory map (rules R52 and R54) -/

/-- The regions of the address map. -/
inductive Region where
  | ram
  | io
  | rom
  | unmapped
  deriving DecidableEq, Repr

/-- Address decoding as a function of the address alone (rule R54; C1). -/
def region (addr : Word) : Region :=
  if addr.toNat ≤ 0x07FF then .ram
  else if 0x2000 ≤ addr.toNat ∧ addr.toNat ≤ 0x2007 then .io
  else if 0x8000 ≤ addr.toNat then .rom
  else .unmapped

/-- Whether a ROM-window address lies inside the configured image: `a - 0x8000 < ROM_LEN`, written as a sum (rule
R56, D7). -/
def romHas (cfg : Config) (addr : Word) : Bool := decide (addr.toNat < 0x8000 + cfg.romLen)

/-- Whether a byte is stored at an address: RAM, or ROM inside the image. -/
def hasStorage (cfg : Config) (addr : Word) : Bool :=
  match region addr with
  | .ram => true
  | .rom => romHas cfg addr
  | .io => false
  | .unmapped => false

/-- The byte stored at an address, if the address has storage: a look at memory that is no bus access. -/
def peek (s : State) (addr : Word) : Option Byte :=
  if hasStorage s.cfg addr then some (Memory.read s.mem addr.toNat) else none

/-! ### The bus (rule R50) -/

/-- `read(a)` (rules R52 to R59). RAM and ROM reads change nothing; an I/O-stub read takes the next draw (R57,
D8; log 4). `pc0` is absent for the reads of `reset()` (rule R221). -/
def busRead (s : State) (addr : Word) (access : Access) (pc0 : Option Word) : Except Fault (Byte × State) :=
  match region addr with
  | .ram => .ok (Memory.read s.mem addr.toNat, s)
  | .io => .ok (Config.ioDraw s.draws, { s with draws := s.draws + 1 })
  | .rom =>
    match romHas s.cfg addr with
    | true => .ok (Memory.read s.mem addr.toNat, s)
    | false => .error (.unmappedAddress addr access pc0)
  | .unmapped => .error (.unmappedAddress addr access pc0)

/-- `write(a, v)` (rules R52, R55, R57, R58): stored in RAM, discarded by the I/O stub, a fault elsewhere; a write
anywhere in the ROM window is RomWrite, whatever the image's length. -/
def busWrite (s : State) (addr : Word) (v : Byte) (pc0 : Word) : Except Fault State :=
  match region addr with
  | .ram => .ok { s with mem := Memory.write s.mem addr.toNat v }
  | .io => .ok s
  | .rom => .error (.romWrite addr pc0)
  | .unmapped => .error (.unmappedAddress addr .write (some pc0))

/-- `read_word(a)` (rule R53): the low byte first, then the byte at `a + 1` modulo 2^16; the first fault is the
fault of the whole. -/
def readWord (s : State) (addr : Word) (access : Access) (pc0 : Option Word) : Except Fault (Word × State) :=
  match busRead s addr access pc0 with
  | .error f => .error f
  | .ok (l, t) =>
    match busRead t (addr + 1#16) access pc0 with
    | .error f => .error f
    | .ok (h, u) => .ok (leWord l h, u)

/-! ### Instruction fetch -/

/-- `Fetch8()` (rule R101): read at PC, then advance PC modulo 2^16; a faulting read advances nothing. `pc0` is the
address of the instruction's opcode byte, which a fault reports. -/
def fetch8 (s : State) (pc0 : Word) : Except Fault (Byte × State) :=
  match busRead s s.pc .fetch (some pc0) with
  | .error f => .error f
  | .ok (b, t) => .ok (b, { t with pc := s.pc + 1#16 })

/-- The fetch, decode and resolve-bytes stages of a step (rule R102): the opcode, then exactly the operand bytes
its form asks for, low byte first. An undefined opcode asks for none (rules R203 and R204). -/
def fetchInstr (s : State) : Except Fault (Instr × State) :=
  match fetch8 s s.pc with
  | .error f => .error f
  | .ok (op, t) =>
    match decodeOpcode s.cfg.undefPolicy op with
    | .whole i => .ok (i, t)
    | .byte mk =>
      match fetch8 t s.pc with
      | .error f => .error f
      | .ok (b, u) => .ok (mk b, u)
    | .word mk =>
      match fetch8 t s.pc with
      | .error f => .error f
      | .ok (l, u) =>
        match fetch8 u s.pc with
        | .error f => .error f
        | .ok (h, w) => .ok (mk (leWord l h), w)

/-! ### The two ends of an instruction -/

/-- PC after operand resolution: the byte after an instruction of this mode (rules R24 and R25). A meaning starts
at the opcode's address and moves past the instruction here (log 7). -/
def consume (m : Mode) (s : State) : State := { s with pc := s.pc + BitVec.ofNat 16 m.length }

/-- The last two stages of a step (rule R102): the flag update, and the cycle count returned. -/
def retire (k : Kind) (m : Mode) (o : Operand) (result : Option Byte) (taken : Bool) (s : State) : State :=
  { s with p := updateFlags k result s.p, cycles := some (cycleCost k m o taken) }

/-! ### Taking a fault -/

/-- Go on with what a bus access gave, or end the step with its fault (`raise` of rule R11): nothing after it
happens and nothing is committed (rule R105). -/
def orFault {α : Type} (r : Except Fault α) (k : α → Result) : Result :=
  match r with
  | .error f => .fault f
  | .ok v => k v

/-- What a faulting step leaves (rules R105, R220 and R227): the state at its start with the fault recorded. There
is no vectoring and no return from it (rules R227 and R228). DESIGN CHOICE (log 16): the draw counter too is the one at
the step's start, so draws the faulting step took are given back; the spec is silent on whether they count. -/
def recordFault (s : State) (f : Fault) : State := { s with fault := some f }

end Sys2Proof.Machine
end

