-- ==== Sys2Proof/Machine/ControlFlow.lean ====
section
/-! DEFINITION. Control transfer (spec/43_control_flow.md). -/

namespace Sys2Proof.Machine

/-- JMP Absolute (rule R180): no access at the target. -/
def execJmpAbs (target : Word) (s : State) : Result :=
  .next (retire .jmp .absolute (resolveAbsolute target) none false { consume .absolute s with pc := target })

/-- BNE Relative (rule R181): the branch is taken when Z is clear; the target is relative to the byte after the
instruction. -/
def execBneRel (off : Byte) (s : State) : Result :=
  let t := consume .relative s
  let o := resolveRelative t.pc off
  if s.p.z = false then
    .next (retire .bne .relative o none true { t with pc := addrel16 t.pc off })
  else
    .next (retire .bne .relative o none false t)

end Sys2Proof.Machine
end

