-- ==== Sys2Proof/Machine/LoadStore.lean ====
section
/-! DEFINITION. Loads and stores (spec/41_loads_stores.md). Each meaning is the whole transition from the opcode's
address: `s.pc` is pc0. -/

namespace Sys2Proof.Machine

/-- LDA Immediate (rule R140). -/
def execLdaImm (v : Byte) (s : State) : Result :=
  .next (retire .lda .immediate (resolveImmediate v) (some v) false { consume .immediate s with a := v })

/-- LDA Absolute-indexed X (rule R141). -/
def execLdaAbsX (base : Word) (s : State) : Result :=
  orFault (busRead (consume .absoluteX s) (addx16 base s.x) .read (some s.pc)) fun r =>
    .next (retire .lda .absoluteX (resolveAbsoluteX base s.x) (some r.1) false { r.2 with a := r.1 })

/-- LDX Immediate (rule R142). -/
def execLdxImm (v : Byte) (s : State) : Result :=
  .next (retire .ldx .immediate (resolveImmediate v) (some v) false { consume .immediate s with x := v })

/-- LDY Immediate (rule R143). -/
def execLdyImm (v : Byte) (s : State) : Result :=
  .next (retire .ldy .immediate (resolveImmediate v) (some v) false { consume .immediate s with y := v })

/-- STA Absolute (rule R144): the write is the last bus access of the step. -/
def execStaAbs (ea : Word) (s : State) : Result :=
  orFault (busWrite (consume .absolute s) ea s.a s.pc) fun t =>
    .next (retire .sta .absolute (resolveAbsolute ea) none false t)

end Sys2Proof.Machine
end

