-- ==== Sys2Proof/Machine/RegisterAlu.lean ====
section
/-! DEFINITION. Register transfers and increments (spec/42_register_alu.md). -/

namespace Sys2Proof.Machine

/-- TXS (rule R160): N and Z follow the copied value here (C3). -/
def execTxs (s : State) : Result :=
  .next (retire .txs .implied resolveImplied (some s.x) false { consume .implied s with sp := s.x })

/-- INX (rule R161). -/
def execInx (s : State) : Result :=
  .next (retire .inx .implied resolveImplied (some (inc8 s.x)) false { consume .implied s with x := inc8 s.x })

/-- DEY (rule R162). -/
def execDey (s : State) : Result :=
  .next (retire .dey .implied resolveImplied (some (dec8 s.y)) false { consume .implied s with y := dec8 s.y })

end Sys2Proof.Machine
end

