-- ==== Sys2Proof/Machine/System.lean ====
section
/-! DEFINITION. SEI, NOP and undefined opcodes (spec/44_system_and_undefined.md). -/

namespace Sys2Proof.Machine

/-- SEI (rule R200): I is set by the instruction's own rule, not by the flag generator (C2). -/
def execSei (s : State) : Result :=
  .next (retire .sei .implied resolveImplied none false
    { consume .implied s with p := { s.p with i := true } })

/-- NOP (rules R201 and R204): one byte long, whatever undefined byte it was decoded from. -/
def execNop (_op : Byte) (s : State) : Result :=
  .next (retire .nop .implied resolveImplied none false (consume .implied s))

/-- An undefined opcode under `UNDEF_POLICY = fault` (rules R203 and R223): the step ends with
UnimplementedOpcode, the opcode byte and its address. -/
def execUnimplemented (op : Byte) (s : State) : Result :=
  .fault (.unimplementedOpcode op s.pc)

end Sys2Proof.Machine
end

