-- ==== Sys2Proof/Machine/Dispatch.lean ====
section
/-! DEFINITION. One arm per instruction (spec/40_step_and_operands.md rule R118). -/

namespace Sys2Proof.Machine

def exec (i : Instr) (s : State) : Host.Outcome State Fault Refusal :=
  match i with
  | .jmpAbs target => Sys2Proof.Machine.execJmpAbs target s
  | .sei => Sys2Proof.Machine.execSei s
  | .dey => Sys2Proof.Machine.execDey s
  | .staAbs addr => Sys2Proof.Machine.execStaAbs addr s
  | .txs => Sys2Proof.Machine.execTxs s
  | .ldyImm v => Sys2Proof.Machine.execLdyImm v s
  | .ldxImm v => Sys2Proof.Machine.execLdxImm v s
  | .ldaImm v => Sys2Proof.Machine.execLdaImm v s
  | .ldaAbsX base => Sys2Proof.Machine.execLdaAbsX base s
  | .bneRel off => Sys2Proof.Machine.execBneRel off s
  | .inx => Sys2Proof.Machine.execInx s
  | .nop op => Sys2Proof.Machine.execNop op s
  | .unimplemented op => Sys2Proof.Machine.execUnimplemented op s

end Sys2Proof.Machine
end

