-- ==== Sys2Proof/Machine/HostOps.lean ====
section
/-! DEFINITION. The host's other operations (spec/60_exceptions.md rules R240 and R241, spec/70_reset_and_hazards.md
rules R250 to R255), and placing an instruction for the next fetch. -/

namespace Sys2Proof

/-- What a host reads of the register file after a fault: any value (rules R105 and R241,
spec/93_implementation_defined.md). No body. DESIGN CHOICE (log 9), safe. -/
opaque Config.registersAfterFault : Machine.State → Machine.RegisterFile

namespace Machine

/-- `construct(RAM_INIT, ROM, UNDEF_POLICY)` (rules R34 and R240): power-on values, PC = 0x0000, RAM holding
`RAM_INIT`, the image at 0x8000. A host gives 0x800 bytes of RAM contents and an image of 1 to 0x8000 bytes; bytes
past those bounds have no address and are dropped (log 15). -/
def construct (ramInit rom : List Byte) (pol : UndefPolicy) : State :=
  { a := 0x00#8
    x := 0x00#8
    y := 0x00#8
    sp := 0x00#8
    pc := 0x0000#16
    p := Flags.initial
    mem := Memory.load (Memory.load [] 0 (ramInit.take 0x800)) 0x8000 (rom.take 0x8000)
    cfg := { undefPolicy := pol, romLen := (rom.take 0x8000).length }
    fault := none
    draws := 0
    cycles := none }

/-- `reset()` (rules R250 to R252): the register file back to its defaults and PC from the vector; RAM, ROM and the
configuration untouched; no cycle count. A reset after a fault starts a new run (R228), whose record is none (R32; log
8). A fault of the vector read is the outcome (R251); DESIGN CHOICE (log 17): no state after such a reset is given,
since the spec says neither whether the registers are already zeroed nor whether the fault is recorded. -/
def resetCore (s : State) : Result :=
  orFault (readWord s 0xFFFC#16 .read none) fun r =>
    .next { r.2 with
      a := 0x00#8, x := 0x00#8, y := 0x00#8, sp := 0x00#8,
      p := Flags.initial, pc := r.1, fault := none, cycles := none }

/-- `inspect_registers()` (rules R238 and R241): a read-only snapshot; after a fault its values are unspecified,
but the reserved flag is still true. -/
def inspectRegisters (s : State) : RegisterFile :=
  match s.fault with
  | none => { a := s.a, x := s.x, y := s.y, sp := s.sp, pc := s.pc, p := s.p }
  | some _ =>
    let free := Config.registersAfterFault s
    { free with p := { free.p with r := true } }

/-- Whether the three bytes from an address on all have storage. -/
def windowHasStorage (cfg : Config) (addr : Word) : Bool :=
  hasStorage cfg addr && hasStorage cfg (addr + 1#16) && hasStorage cfg (addr + 2#16)

/-- Put a list of bytes into storage from an address on, modulo 2^16: what a host does when it supplies a RAM or
ROM image, no bus write. -/
def placeBytes : Memory → Word → List Byte → Memory
  | m, _, [] => m
  | m, addr, b :: bs => placeBytes (Memory.write m addr.toNat b) (addr + 1#16) bs

/-- Where a placed instruction goes: at PC if three bytes there have storage, else at 0x0000 in RAM (log 12). -/
def placementAddr (s : State) : Word :=
  if windowHasStorage s.cfg s.pc then s.pc else 0x0000#16

end Machine

end Sys2Proof
end

