-- ==== Sys2Proof/Machine/Step.lean ====
section
/-! DEFINITION. One `step()` (spec/40_step_and_operands.md rules R100 to R103), and the state in which the next step
runs a given instruction. -/

namespace Sys2Proof.Machine

/-- Fetch, decode and execute one instruction (rule R102). The meaning runs from the opcode's address and moves PC
past the instruction itself; of the fetch it sees the draws taken (log 7). With a fault recorded there is no step
(rule R103; log 6). -/
def step (s : State) : Host.Outcome State Fault Refusal :=
  match s.fault with
  | some _ => .refused .alreadyFaulted
  | none => orFault (fetchInstr s) fun r => exec r.1 { s with draws := r.2.draws }

/-- What the host sees of a `step()` call (rules R103, R105, R106, R220): the state after it and the cycle count or
the fault it returned; nothing when no step is possible. -/
def hostStep (s : State) : Option (State × Except Fault Nat) :=
  match step s with
  | .next t =>
    match t.cycles with
    | some n => some (t, .ok n)
    | none => none
  | .fault f => some (recordFault s f, .error f)
  | .refused _ => none

/-- `s` with an instruction of opcode-table bits `w` where the next step fetches, and no fault recorded, so that
the very next step runs it. It stands for the host's loading of a program (log 12). -/
def State.withFetchWord (s : State) (nbits w : Nat) : State :=
  { s with
    mem := placeBytes s.mem (placementAddr s) (tableBytes nbits w),
    pc := placementAddr s,
    fault := none }

end Sys2Proof.Machine
end

