-- ==== Sys2Proof/WellFormed.lean ====
section
/-! DEFINITION. Which instructions the decoder may produce under a configuration (spec/30_encoding.md rules R87
and R89). -/

namespace Sys2Proof

/-- Rule R89: the eleven defined pairs always; NOP only from an undefined byte under `UNDEF_POLICY = nop`
(rule R204); the raising form only from an undefined byte under `UNDEF_POLICY = fault` (rule R203). -/
def WellFormed (pol : UndefPolicy) : Instr → Bool
  | .jmpAbs _ => true
  | .sei => true
  | .dey => true
  | .staAbs _ => true
  | .txs => true
  | .ldyImm _ => true
  | .ldxImm _ => true
  | .ldaImm _ => true
  | .ldaAbsX _ => true
  | .bneRel _ => true
  | .inx => true
  | .nop op => pol == .nop && !definedOpcode op
  | .unimplemented op => pol == .fault && !definedOpcode op

end Sys2Proof
end

