-- ==== Sys2Proof/Safety.lean ====
section
/-! DEFINITION. What a legal state and a good run are, and the vocabulary the statements about a step use. -/

namespace Sys2Proof.Machine

/-! ### Legal states -/

/-- An entry of memory stands where there is storage (rules R52 and R56). -/
def cellHasStorage (cfg : Config) (c : Host.Cell) : Bool :=
  decide (c.1 < 0x10000) && hasStorage cfg (BitVec.ofNat 16 c.1)

/-- What every state of the machine meets: the reserved flag is true (rule R28), the image's length is legal (rule
R8), and memory is canonical and lists only bytes that have storage. -/
structure Legal (s : State) : Prop where
  reserved : s.p.r = true
  romNonempty : 1 ≤ s.cfg.romLen
  romFits : s.cfg.romLen ≤ 0x8000
  canonical : Memory.wf s.mem = true
  stored : s.mem.all (cellHasStorage s.cfg) = true

/-! ### Runs (rules R226 and R243) -/

/-- How a host may say that a run ends (rule R243, D26). -/
inductive EndCondition where
  | afterSteps (n : Nat)
  | atAddress (addr : Word)
  deriving DecidableEq, Repr

/-- Whether a state reached in `n` steps meets the condition. -/
def EndCondition.met (n : Nat) (t : State) : EndCondition → Prop
  | .afterSteps k => k = n
  | .atAddress addr => t.pc = addr

/-- `n` steps from a state, stopping at the first that does not complete. -/
def runFor : Nat → State → Result
  | 0, s => .next s
  | n + 1, s =>
    match step s with
    | .next t => runFor n t
    | .fault f => .fault f
    | .refused r => .refused r

/-- `n` steps from `s` all completed, and left `t`. -/
def RunsTo (n : Nat) (s t : State) : Prop := runFor n s = .next t

/-- A good end: the condition is met with no fault on the way (rule R243). -/
def GoodEnd (e : EndCondition) (s t : State) : Prop := ∃ n, RunsTo n s t ∧ e.met n t ∧ t.fault = none

/-! ### Words for statements -/

/-- Apply a change to the state of a next outcome. -/
def onNext (f : State → State) : Result → Result
  | .next t => .next (f t)
  | .fault r => .fault r
  | .refused r => .refused r

/-- Read the next `n` instruction-stream bytes of the instruction at `pc0` (rule R101, repeated). -/
def fetchBytes (pc0 : Word) : Nat → State → Except Fault (List Byte × State)
  | 0, s => .ok ([], s)
  | n + 1, s =>
    match fetch8 s pc0 with
    | .error f => .error f
    | .ok (b, t) =>
      match fetchBytes pc0 n t with
      | .error f => .error f
      | .ok (bs, u) => .ok (b :: bs, u)

/-- The fault of an instruction-byte fetch at an address by the instruction at `pc0` (rule R221). -/
def fetchFault (addr pc0 : Word) : Fault := .unmappedAddress addr .fetch (some pc0)

/-- A step that fetches this opcode byte fetches nothing more and runs this instruction. -/
def RunsOneByte (op : Byte) (i : Instr) : Prop :=
  ∀ s t, s.fault = none → fetch8 s s.pc = .ok (op, t) → step s = exec i { s with draws := t.draws }

/-- A step that fetches this opcode byte takes one operand byte: its fetch fault ends the step, else the step runs
the instruction made of it. -/
def RunsTwoBytes (op : Byte) (mk : Byte → Instr) : Prop :=
  ∀ s t, s.fault = none → fetch8 s s.pc = .ok (op, t) →
    (∀ f, fetch8 t s.pc = .error f → f = fetchFault (s.pc + 1#16) s.pc ∧ step s = .fault f) ∧
    (∀ b u, fetch8 t s.pc = .ok (b, u) → step s = exec (mk b) { s with draws := u.draws })

/-- A step that fetches this opcode byte takes two operand bytes, low byte first: the first fetch fault ends the
step, else the step runs the instruction made of their word. -/
def RunsThreeBytes (op : Byte) (mk : Word → Instr) : Prop :=
  ∀ s t, s.fault = none → fetch8 s s.pc = .ok (op, t) →
    (∀ f, fetch8 t s.pc = .error f → f = fetchFault (s.pc + 1#16) s.pc ∧ step s = .fault f) ∧
    (∀ l u, fetch8 t s.pc = .ok (l, u) →
      (∀ f, fetch8 u s.pc = .error f → f = fetchFault (s.pc + 2#16) s.pc ∧ step s = .fault f) ∧
      (∀ h w, fetch8 u s.pc = .ok (h, w) →
        step s = exec (mk (leWord l h)) { s with draws := w.draws }))

/-- The flag-result an instruction hands to the flag generator, read from the state it leaves (rule R121): the byte
loaded, the byte copied into SP, or the new value of X or Y. -/
def flagResult (i : Instr) (t : State) : Option Byte :=
  match i with
  | .ldaImm _ => some t.a
  | .ldaAbsX _ => some t.a
  | .ldxImm _ => some t.x
  | .ldyImm _ => some t.y
  | .txs => some t.sp
  | .inx => some t.x
  | .dey => some t.y
  | .jmpAbs _ => none
  | .sei => none
  | .staAbs _ => none
  | .bneRel _ => none
  | .nop _ => none
  | .unimplemented _ => none

end Sys2Proof.Machine
end

