-- ==== Sys2Proof/Certificates/Slice0/Obligations.lean ====
section
/-! DEFINITION. The statements for the provers. R<n> are the spec's numbered rules, D<n> its own decisions, "log n" the
model's assumption log. -/

open Sys2Proof Sys2Proof.Machine

/-! ### Encoding -/

/-- The byte strings of rule R91, and one written-out word of each other family. -/
def Obligations.SampleWordsDecode : Prop :=
  ∀ pol : UndefPolicy,
    decode pol [0x4C#8, 0xFF#8, 0x80#8] = .ok (.jmpAbs 0x80FF#16, []) ∧
    decode pol [0xE8#8, 0xD0#8, 0xFA#8] = .ok (.inx, [0xD0#8, 0xFA#8]) ∧
    decode pol [0xD0#8, 0xFA#8] = .ok (.bneRel 0xFA#8, []) ∧ (0xFA#8).toInt = -6 ∧
    decode pol [0xBD#8, 0x00#8, 0x01#8] = .ok (.ldaAbsX 0x0100#16, []) ∧
    decode pol [0x8D#8, 0x00#8, 0x02#8] = .ok (.staAbs 0x0200#16, []) ∧
    decode pol [0x78#8] = .ok (.sei, [])

/-- Rule R86: each opcode's kind, mode and length, and every other byte by the policy. How many bytes such another byte
takes is no part of this statement: see LengthFixedByOpcode (D3, log 10). -/
def Obligations.OpcodeTableDecodes : Prop :=
  ∀ (pol : UndefPolicy) (l h : Byte) (w : Word) (rest : List Byte),
    (decode pol (0x4C#8 :: l :: h :: rest) = .ok (.jmpAbs (leWord l h), rest) ∧
      decode pol (0x78#8 :: rest) = .ok (.sei, rest) ∧
      decode pol (0x88#8 :: rest) = .ok (.dey, rest) ∧
      decode pol (0x8D#8 :: l :: h :: rest) = .ok (.staAbs (leWord l h), rest) ∧
      decode pol (0x9A#8 :: rest) = .ok (.txs, rest) ∧
      decode pol (0xA0#8 :: l :: rest) = .ok (.ldyImm l, rest) ∧
      decode pol (0xA2#8 :: l :: rest) = .ok (.ldxImm l, rest) ∧
      decode pol (0xA9#8 :: l :: rest) = .ok (.ldaImm l, rest) ∧
      decode pol (0xBD#8 :: l :: h :: rest) = .ok (.ldaAbsX (leWord l h), rest) ∧
      decode pol (0xD0#8 :: l :: rest) = .ok (.bneRel l, rest) ∧
      decode pol (0xE8#8 :: rest) = .ok (.inx, rest)) ∧
    ([Instr.jmpAbs w, .sei, .dey, .staAbs w, .txs, .ldyImm l, .ldxImm l, .ldaImm l, .ldaAbsX w, .bneRel l, .inx].map
        (fun i => (i.kind?, i.mode, i.length?)) =
      [(some .jmp, .absolute, some 3), (some .sei, .implied, some 1), (some .dey, .implied, some 1),
        (some .sta, .absolute, some 3), (some .txs, .implied, some 1), (some .ldy, .immediate, some 2),
        (some .ldx, .immediate, some 2), (some .lda, .immediate, some 2), (some .lda, .absoluteX, some 3),
        (some .bne, .relative, some 2), (some .inx, .implied, some 1)]) ∧
    (∀ op : Byte,
      op ∉ [0x4C#8, 0x78#8, 0x88#8, 0x8D#8, 0x9A#8, 0xA0#8, 0xA2#8, 0xA9#8, 0xBD#8, 0xD0#8, 0xE8#8] →
      (pol = .nop → ∃ r, decode pol (op :: rest) = .ok (.nop op, r)) ∧
      (pol = .fault → ∃ r, decode pol (op :: rest) = .ok (.unimplemented op, r)))

/-- Decoding the encoding of a well-formed instruction gives it back, whatever bytes follow. -/
def Obligations.DecodeOfEncode : Prop :=
  ∀ (pol : UndefPolicy) (i : Instr) (rest : List Byte), WellFormed pol i = true →
    decode pol (encode i ++ rest) = .ok (i, rest)

/-- Every decoded instruction is well formed and the bytes it was read from are its encoding. -/
def Obligations.EncodeOfDecode : Prop :=
  ∀ (pol : UndefPolicy) (bs rest : List Byte) (i : Instr), decode pol bs = .ok (i, rest) →
    WellFormed pol i = true ∧ bs = encode i ++ rest

/-- The opcode alone fixes an instruction's length, 1 and its mode's operand bytes (rules R80 and R83). An undefined
byte has length 1 under the no-op policy (D3) and no length under the fault policy; that the raising form is then read
from the opcode byte alone is the model's way to say that no operand byte is read (log 10). -/
def Obligations.LengthFixedByOpcode : Prop :=
  (∀ (pol : UndefPolicy) (op : Byte) (xs ys r1 r2 : List Byte) (i j : Instr),
    decode pol (op :: xs) = .ok (i, r1) → decode pol (op :: ys) = .ok (j, r2) →
    i.length? = j.length? ∧ i.streamBytes = j.streamBytes ∧
    (op :: xs).length = i.streamBytes + r1.length ∧
    (∀ n, i.length? = some n → n = 1 + i.mode.operandBytes ∧ (op :: xs).length = n + r1.length) ∧
    (i.length? = none ↔ pol = .fault ∧ definedOpcode op = false)) ∧
  (∀ (op : Byte) (rest : List Byte), definedOpcode op = false →
    (decode .nop (op :: rest) = .ok (.nop op, rest) ∧ (Instr.nop op).length? = some 1) ∧
    (decode .fault (op :: rest) = .ok (.unimplemented op, rest) ∧ (Instr.unimplemented op).length? = none))

/-! ### The step -/

/-- When the bytes the step fetches decode to an instruction, the step is that instruction's meaning, run from the
opcode's address with the fetch's draws taken; the fetch itself has read exactly the instruction's bytes. -/
def Obligations.StepRunsDecodedInstruction : Prop :=
  ∀ (s t : State) (i : Instr) (bs : List Byte), s.fault = none →
    fetchBytes s.pc i.streamBytes s = .ok (bs, t) → decode s.cfg.undefPolicy bs = .ok (i, []) →
    step s = exec i { s with draws := t.draws } ∧ t.pc = s.pc + BitVec.ofNat 16 i.streamBytes

/-- Where an instruction's encoding is stored at PC, in RAM or ROM, the step is the instruction's meaning. -/
def Obligations.StepRunsStoredInstruction : Prop :=
  ∀ (s : State) (i : Instr), s.fault = none → WellFormed s.cfg.undefPolicy i = true →
    (∀ (k : Nat) (b : Byte), (encode i)[k]? = some b → peek s (s.pc + BitVec.ofNat 16 k) = some b) →
    step s = exec i s

/-- A step reports the first fault in access order: opcode fetch, decode, first operand byte, second operand byte
(the data access is the meaning's own); reset reads the low vector byte first (rule R225, D11). -/
def Obligations.StepFaultsInAccessOrder : Prop :=
  (∀ s : State, s.fault = none →
    (∀ f, fetch8 s s.pc = .error f → step s = .fault f) ∧
    (∀ op t, fetch8 s s.pc = .ok (op, t) →
      (definedOpcode op = false → s.cfg.undefPolicy = .fault →
        step s = .fault (.unimplementedOpcode op s.pc)) ∧
      (∀ mk f, decodeOpcode s.cfg.undefPolicy op = .byte mk → fetch8 t s.pc = .error f → step s = .fault f) ∧
      (∀ mk f, decodeOpcode s.cfg.undefPolicy op = .word mk → fetch8 t s.pc = .error f → step s = .fault f) ∧
      (∀ mk l u f, decodeOpcode s.cfg.undefPolicy op = .word mk → fetch8 t s.pc = .ok (l, u) →
        fetch8 u s.pc = .error f → step s = .fault f))) ∧
  (∀ s f, busRead s 0xFFFC#16 .read none = .error f → resetCore s = .fault f)

/-- Rule R101: read at PC, then advance PC modulo 2^16; a faulting read gives the fault and no advanced state; the
stub yields a draw. -/
def Obligations.FetchReadsThenAdvances : Prop :=
  ∀ (s : State) (pc0 : Word),
    (∀ b t, busRead s s.pc .fetch (some pc0) = .ok (b, t) →
      fetch8 s pc0 = .ok (b, { t with pc := s.pc + 1#16 }) ∧ (region s.pc = .io → b = Config.ioDraw s.draws)) ∧
    (∀ f, busRead s s.pc .fetch (some pc0) = .error f →
      fetch8 s pc0 = .error f ∧ f = .unmappedAddress s.pc .fetch (some pc0))

/-- Rule R220: a fault ends the step, is returned in place of a cycle count and recorded; the kinds are three. -/
def Obligations.FaultsAreReturnedAndRecorded : Prop :=
  (∀ (s : State) (f : Fault), step s = .fault f →
    (hostStep s = some (recordFault s f, .error f)) ∧ (recordFault s f).fault = some f ∧ ∀ t, step s ≠ .next t) ∧
  (∀ f : Fault, (∃ addr acc pc0, f = .unmappedAddress addr acc pc0) ∨ (∃ addr pc0, f = .romWrite addr pc0) ∨
    (∃ op pc0, f = .unimplementedOpcode op pc0))

/-- A faulting step keeps every register, flag and byte, and no step follows it (rules R103, R105 and R226, D10; log
6). The state it leaves differs from the step's start in the fault record alone, so it also keeps the draw counter, which
is the model's choice where the spec is silent (log 16, DESIGN CHOICE), and the model's own record of the last count
(log 5). -/
def Obligations.NoStepAfterFault : Prop :=
  (∀ (s : State) (f : Fault), s.fault = some f → step s = .refused .alreadyFaulted ∧ hostStep s = none) ∧
  (∀ (s u : State) (f : Fault), hostStep s = some (u, .error f) →
    u = { s with fault := some f } ∧ step s = .fault f ∧ hostStep u = none)

/-- A completed step returns a count from 2 to 5 and records no fault (rule R106, D18). -/
def Obligations.CompletedStepReturnsTwoToFive : Prop :=
  ∀ s t : State, step s = .next t →
    t.fault = none ∧ ∃ n, t.cycles = some n ∧ hostStep s = some (t, .ok n) ∧ 2 ≤ n ∧ n ≤ 5

/-- The cycle table of rule R130 (derived there; the base costs but LDA's, BNE's and JMP's are decision D4, the page
test of BNE is D5, the untaken BNE D6, NOP D3; log 14). -/
def Obligations.CycleTable : Prop :=
  ∀ (i : Instr) (s t : State), exec i s = .next t →
    match i with
    | .jmpAbs _ => t.cycles = some 3
    | .sei => t.cycles = some 2
    | .dey => t.cycles = some 2
    | .staAbs _ => t.cycles = some 4
    | .txs => t.cycles = some 2
    | .ldyImm _ => t.cycles = some 2
    | .ldxImm _ => t.cycles = some 2
    | .ldaImm _ => t.cycles = some 2
    | .ldaAbsX base =>
      t.cycles = some (if hiByte (base + s.x.zeroExtend 16) = hiByte base then 4 else 5)
    | .bneRel off =>
      t.cycles = some (if s.p.z then 2 else
        if hiByte (s.pc + 2#16 + off.signExtend 16) = hiByte (s.pc + 2#16) then 3 else 4)
    | .inx => t.cycles = some 2
    | .nop _ => t.cycles = some 2
    | .unimplemented _ => False

/-- Rule R131: no register, flag, memory byte or later step depends on the returned count, and no total is kept: the
outcome of a step, its own count included, is the same whatever was returned before. -/
def Obligations.CycleCountFeedsNothing : Prop :=
  ∀ (s : State) (c : Option Nat), step { s with cycles := c } = step s

/-! ### The bus -/

/-- Rule R54: address decoding, every address in at most one region. -/
def Obligations.AddressDecoding : Prop :=
  ∀ addr : Word,
    (region addr = .ram ↔ addr.toNat ≤ 0x07FF) ∧
    (region addr = .io ↔ 0x2000 ≤ addr.toNat ∧ addr.toNat ≤ 0x2007) ∧
    (region addr = .rom ↔ 0x8000 ≤ addr.toNat) ∧
    (region addr = .unmapped ↔
      (0x0800 ≤ addr.toNat ∧ addr.toNat ≤ 0x1FFF) ∨ (0x2008 ≤ addr.toNat ∧ addr.toNat ≤ 0x7FFF))

/-- Rule R52, row by row: what a read and a write of each address do. A stub read gives some byte and takes a draw. -/
def Obligations.BusFollowsTheMap : Prop :=
  ∀ (s : State) (addr : Word) (v : Byte) (acc : Access) (pc0 : Option Word) (p : Word),
    (addr.toNat ≤ 0x07FF →
      busRead s addr acc pc0 = .ok (Memory.read s.mem addr.toNat, s) ∧
      busWrite s addr v p = .ok { s with mem := Memory.write s.mem addr.toNat v }) ∧
    ((0x0800 ≤ addr.toNat ∧ addr.toNat ≤ 0x1FFF) ∨ (0x2008 ≤ addr.toNat ∧ addr.toNat ≤ 0x7FFF) →
      busRead s addr acc pc0 = .error (.unmappedAddress addr acc pc0) ∧
      busWrite s addr v p = .error (.unmappedAddress addr .write (some p))) ∧
    (0x2000 ≤ addr.toNat ∧ addr.toNat ≤ 0x2007 →
      (∃ b, busRead s addr acc pc0 = .ok (b, { s with draws := s.draws + 1 })) ∧ busWrite s addr v p = .ok s) ∧
    (0x8000 ≤ addr.toNat →
      (addr.toNat - 0x8000 < s.cfg.romLen → busRead s addr acc pc0 = .ok (Memory.read s.mem addr.toNat, s)) ∧
      (s.cfg.romLen ≤ addr.toNat - 0x8000 → busRead s addr acc pc0 = .error (.unmappedAddress addr acc pc0)) ∧
      busWrite s addr v p = .error (.romWrite addr p))

/-- A RAM write completes, the next read of the address returns the byte, and no other byte changes (rule R55, D12:
no mirroring). -/
def Obligations.RamHoldsTheByteWritten : Prop :=
  ∀ (s : State) (addr : Word) (v : Byte) (p : Word), Memory.wf s.mem = true → addr.toNat ≤ 0x07FF →
    ∃ t, busWrite s addr v p = .ok t ∧
      (∀ acc pc0, busRead t addr acc pc0 = .ok (v, t)) ∧ (∀ other, other ≠ addr → peek t other = peek s other)

/-- A constructed core holds `RAM_INIT` and the ROM image, and nothing past the image (rules R34, R55 and R56; D7,
D12). -/
def Obligations.ConstructionPlacesTheImages : Prop :=
  ∀ (ram rom : List Byte) (pol : UndefPolicy), ram.length = 0x800 → 1 ≤ rom.length → rom.length ≤ 0x8000 →
    (∀ (k : Nat) (hk : k < ram.length), peek (construct ram rom pol) (BitVec.ofNat 16 k) = some ram[k]) ∧
    (∀ (k : Nat) (hk : k < rom.length),
      peek (construct ram rom pol) (BitVec.ofNat 16 (0x8000 + k)) = some rom[k]) ∧
    (∀ k : Nat, rom.length ≤ k → k < 0x8000 →
      peek (construct ram rom pol) (BitVec.ofNat 16 (0x8000 + k)) = none)

/-- Rule R30: no instruction writes the ROM image or the policy, and neither does reset. -/
def Obligations.ConfigurationAndRomAreFixed : Prop :=
  (∀ s t : State, step s = .next t →
    t.cfg = s.cfg ∧ ∀ addr : Word, 0x8000 ≤ addr.toNat → peek t addr = peek s addr) ∧
  (∀ s t : State, resetCore s = .next t →
    t.cfg = s.cfg ∧ ∀ addr : Word, 0x8000 ≤ addr.toNat → peek t addr = peek s addr)

/-- Rule R61: the low byte at the address, the high byte after it; absolute operands low byte first; under every
configuration. -/
def Obligations.LittleEndianWords : Prop :=
  (∀ l h : Byte, (leWord l h).toNat = h.toNat * 256 + l.toNat) ∧
  (∀ (s : State) (addr : Word) (acc : Access) (pc0 : Option Word) (l h : Byte),
    peek s addr = some l → peek s (addr + 1#16) = some h → readWord s addr acc pc0 = .ok (leWord l h, s)) ∧
  (∀ (pol : UndefPolicy) (l h : Byte),
    decode pol [0x4C#8, l, h] = .ok (.jmpAbs (leWord l h), []) ∧
    decode pol [0x8D#8, l, h] = .ok (.staAbs (leWord l h), []) ∧
    decode pol [0xBD#8, l, h] = .ok (.ldaAbsX (leWord l h), []))

/-- Rule R59: a read or write of an unmapped address raises UnmappedAddress, and the instruction that made it does
not complete. -/
def Obligations.UnmappedAccessFaults : Prop :=
  ∀ (s : State) (addr : Word), region addr = .unmapped →
    (∀ acc pc0, busRead s addr acc pc0 = .error (.unmappedAddress addr acc pc0)) ∧
    (∀ v p, busWrite s addr v p = .error (.unmappedAddress addr .write (some p))) ∧
    exec (.staAbs addr) s = .fault (.unmappedAddress addr .write (some s.pc)) ∧
    (∀ base : Word, base + s.x.zeroExtend 16 = addr →
      exec (.ldaAbsX base) s = .fault (.unmappedAddress addr .read (some s.pc)))

/-! ### Instructions: result, completion and fetch -/

/-- Rule R140. -/
def Obligations.LdaImmediateLoadsA : Prop :=
  (∀ (v : Byte) (s : State), exec (.ldaImm v) s =
    .next { s with
      a := v, pc := s.pc + 2#16, p := { s.p with n := v.msb, z := v == 0#8 }, cycles := some 2 }) ∧
  RunsTwoBytes 0xA9#8 .ldaImm

/-- Rule R141: a stored byte or a stub draw is loaded; an address with neither faults. -/
def Obligations.LdaAbsoluteXLoadsA : Prop :=
  (∀ (base : Word) (s : State) (v : Byte), peek s (base + s.x.zeroExtend 16) = some v →
    exec (.ldaAbsX base) s = .next { s with
      a := v, pc := s.pc + 3#16, p := { s.p with n := v.msb, z := v == 0#8 },
      cycles := some (if hiByte (base + s.x.zeroExtend 16) = hiByte base then 4 else 5) }) ∧
  (∀ (base : Word) (s : State), region (base + s.x.zeroExtend 16) = .io →
    exec (.ldaAbsX base) s = .next { s with
      a := Config.ioDraw s.draws, pc := s.pc + 3#16,
      p := { s.p with n := (Config.ioDraw s.draws).msb, z := Config.ioDraw s.draws == 0#8 },
      draws := s.draws + 1,
      cycles := some (if hiByte (base + s.x.zeroExtend 16) = hiByte base then 4 else 5) }) ∧
  (∀ (base : Word) (s : State), peek s (base + s.x.zeroExtend 16) = none → region (base + s.x.zeroExtend 16) ≠ .io →
    exec (.ldaAbsX base) s = .fault (.unmappedAddress (base + s.x.zeroExtend 16) .read (some s.pc))) ∧
  RunsThreeBytes 0xBD#8 .ldaAbsX

/-- Rule R142 (its cycle count rests on D4). -/
def Obligations.LdxImmediateLoadsX : Prop :=
  (∀ (v : Byte) (s : State), exec (.ldxImm v) s =
    .next { s with
      x := v, pc := s.pc + 2#16, p := { s.p with n := v.msb, z := v == 0#8 }, cycles := some 2 }) ∧
  RunsTwoBytes 0xA2#8 .ldxImm

/-- Rule R143 (its cycle count rests on D4). -/
def Obligations.LdyImmediateLoadsY : Prop :=
  (∀ (v : Byte) (s : State), exec (.ldyImm v) s =
    .next { s with
      y := v, pc := s.pc + 2#16, p := { s.p with n := v.msb, z := v == 0#8 }, cycles := some 2 }) ∧
  RunsTwoBytes 0xA0#8 .ldyImm

/-- Rule R144: stored in RAM, discarded by the stub, RomWrite in the ROM window, UnmappedAddress elsewhere (its
cycle count rests on D4). -/
def Obligations.StaAbsoluteStoresA : Prop :=
  (∀ (ea : Word) (s : State),
    (region ea = .ram → exec (.staAbs ea) s =
      .next { s with mem := Memory.write s.mem ea.toNat s.a, pc := s.pc + 3#16, cycles := some 4 }) ∧
    (region ea = .io → exec (.staAbs ea) s = .next { s with pc := s.pc + 3#16, cycles := some 4 }) ∧
    (region ea = .rom → exec (.staAbs ea) s = .fault (.romWrite ea s.pc)) ∧
    (region ea = .unmapped → exec (.staAbs ea) s = .fault (.unmappedAddress ea .write (some s.pc)))) ∧
  RunsThreeBytes 0x8D#8 .staAbs

/-- Rule R160 (its cycle count rests on D4). -/
def Obligations.TxsCopiesXToSp : Prop :=
  (∀ s : State, exec .txs s =
    .next { s with
      sp := s.x, pc := s.pc + 1#16, p := { s.p with n := s.x.msb, z := s.x == 0#8 }, cycles := some 2 }) ∧
  RunsOneByte 0x9A#8 .txs

/-- Rule R161 (its cycle count rests on D4). -/
def Obligations.InxIncrementsX : Prop :=
  (∀ s : State, exec .inx s =
    .next { s with
      x := s.x + 1#8, pc := s.pc + 1#16, p := { s.p with n := (s.x + 1#8).msb, z := s.x + 1#8 == 0#8 },
      cycles := some 2 }) ∧
  RunsOneByte 0xE8#8 .inx

/-- Rule R162 (its cycle count rests on D4). -/
def Obligations.DeyDecrementsY : Prop :=
  (∀ s : State, exec .dey s =
    .next { s with
      y := s.y - 1#8, pc := s.pc + 1#16, p := { s.p with n := (s.y - 1#8).msb, z := s.y - 1#8 == 0#8 },
      cycles := some 2 }) ∧
  RunsOneByte 0x88#8 .dey

/-- Rule R180: no access at the target, whatever stands there. -/
def Obligations.JmpSetsPc : Prop :=
  (∀ (target : Word) (s : State), exec (.jmpAbs target) s = .next { s with pc := target, cycles := some 3 }) ∧
  RunsThreeBytes 0x4C#8 .jmpAbs

/-- Rule R181: the target is relative to the byte after the instruction, and taken when Z is clear. -/
def Obligations.BneBranchesWhenZClear : Prop :=
  (∀ (off : Byte) (s : State),
    (s.p.z = false → exec (.bneRel off) s =
      .next { s with
        pc := s.pc + 2#16 + off.signExtend 16,
        cycles := some (if hiByte (s.pc + 2#16 + off.signExtend 16) = hiByte (s.pc + 2#16) then 3 else 4) }) ∧
    (s.p.z = true → exec (.bneRel off) s = .next { s with pc := s.pc + 2#16, cycles := some 2 })) ∧
  RunsTwoBytes 0xD0#8 .bneRel

/-- Rule R200 (its cycle count rests on D4). -/
def Obligations.SeiSetsI : Prop :=
  (∀ s : State, exec .sei s =
    .next { s with pc := s.pc + 1#16, p := { s.p with i := true }, cycles := some 2 }) ∧
  RunsOneByte 0x78#8 .sei

/-- NOP, reached from an undefined byte under the no-op policy, moves PC by one and does nothing else (rules R201 and
R204, D3). -/
def Obligations.NopOnlyAdvancesPc : Prop :=
  (∀ (op : Byte) (s : State), exec (.nop op) s = .next { s with pc := s.pc + 1#16, cycles := some 2 }) ∧
  (∀ (op : Byte) (s t : State), s.fault = none → s.cfg.undefPolicy = .nop → definedOpcode op = false →
    fetch8 s s.pc = .ok (op, t) →
    step s = .next { s with pc := s.pc + 1#16, draws := t.draws, cycles := some 2 })

/-- Rule R203: an undefined byte under the fault policy raises UnimplementedOpcode with the byte and its address; what
follows it is never read. -/
def Obligations.UndefinedOpcodeFaults : Prop :=
  (∀ (op : Byte) (s : State), exec (.unimplemented op) s = .fault (.unimplementedOpcode op s.pc)) ∧
  (∀ (op : Byte) (s t : State), s.fault = none → s.cfg.undefPolicy = .fault → definedOpcode op = false →
    fetch8 s s.pc = .ok (op, t) → step s = .fault (.unimplementedOpcode op s.pc))

/-! ### Frames -/

/-- What each instruction leaves alone: A but for LDA, X but for LDX and INX, Y but for LDY and DEY, SP but for TXS,
every byte but for STA, the configuration and the fault record always, the draws but for LDA abs,X; and PC moves by
the length but for JMP and BNE (rules R22 to R24, R30, R57 and R102). Flags: FlagsFollowTheTable; STA's bytes:
StoreFrame. -/
def Obligations.InstructionFrame : Prop :=
  ∀ (i : Instr) (s t : State), exec i s = .next t →
    ((∀ v, i ≠ .ldaImm v) → (∀ b, i ≠ .ldaAbsX b) → t.a = s.a) ∧
    ((∀ v, i ≠ .ldxImm v) → i ≠ .inx → t.x = s.x) ∧
    ((∀ v, i ≠ .ldyImm v) → i ≠ .dey → t.y = s.y) ∧
    (i ≠ .txs → t.sp = s.sp) ∧
    ((∀ ea, i ≠ .staAbs ea) → t.mem = s.mem ∧ ∀ addr, peek t addr = peek s addr) ∧
    t.cfg = s.cfg ∧ t.fault = s.fault ∧
    ((∀ b, i ≠ .ldaAbsX b) → t.draws = s.draws) ∧
    ∃ n, i.length? = some n ∧
      ((∀ w, i ≠ .jmpAbs w) → (∀ o, i ≠ .bneRel o) → t.pc = s.pc + BitVec.ofNat 16 n)

/-- STA's frame: no register or flag changes but PC, no byte outside the one stored to, none at all at the stub; and
in canonical RAM the byte stored is A. -/
def Obligations.StoreFrame : Prop :=
  ∀ (ea : Word) (s t : State), exec (.staAbs ea) s = .next t →
    t.a = s.a ∧ t.x = s.x ∧ t.y = s.y ∧ t.sp = s.sp ∧ t.p = s.p ∧ t.cfg = s.cfg ∧ t.fault = s.fault ∧
    t.draws = s.draws ∧
    (∀ addr, addr ≠ ea → peek t addr = peek s addr) ∧
    (region ea = .io → ∀ addr, peek t addr = peek s addr) ∧
    (region ea = .ram → Memory.wf s.mem = true → peek t ea = some s.a)

/-- What each instruction does not read (the read column of R22, and R23): A feeds only STA; X only LDA abs,X, TXS and
INX; Y only DEY; SP nothing. Changing a register an instruction neither reads nor writes changes that register in its
outcome and nothing else; changing one it writes without reading changes nothing. -/
def Obligations.RegistersReadOnlyAsListed : Prop :=
  ∀ (i : Instr) (s : State) (v : Byte),
    ((∀ ea, i ≠ .staAbs ea) → (∀ u, i ≠ .ldaImm u) → (∀ b, i ≠ .ldaAbsX b) →
      exec i { s with a := v } = onNext (fun t => { t with a := v }) (exec i s)) ∧
    ((∃ u, i = .ldaImm u) ∨ (∃ b, i = .ldaAbsX b) →
      exec i { s with a := v } = exec i s) ∧
    ((∀ b, i ≠ .ldaAbsX b) → i ≠ .txs → i ≠ .inx → (∀ u, i ≠ .ldxImm u) →
      exec i { s with x := v } = onNext (fun t => { t with x := v }) (exec i s)) ∧
    ((∃ u, i = .ldxImm u) → exec i { s with x := v } = exec i s) ∧
    (i ≠ .dey → (∀ u, i ≠ .ldyImm u) →
      exec i { s with y := v } = onNext (fun t => { t with y := v }) (exec i s)) ∧
    ((∃ u, i = .ldyImm u) → exec i { s with y := v } = exec i s) ∧
    (i ≠ .txs → exec i { s with sp := v } = onNext (fun t => { t with sp := v }) (exec i s)) ∧
    (i = .txs → exec i { s with sp := v } = exec i s)

/-- Rules R27, R120, R121 and R122: who writes each flag, who reads it, and its reset value. Reading: with Z equal, or
for any instruction but BNE, the flags feed nothing but the flags. -/
def Obligations.FlagsFollowTheTable : Prop :=
  (∀ (i : Instr) (s t : State), exec i s = .next t →
    (match flagResult i t with
      | some r => t.p.n = r.msb ∧ t.p.z = (r == 0#8)
      | none => t.p.n = s.p.n ∧ t.p.z = s.p.z) ∧
    t.p.v = s.p.v ∧ t.p.r = s.p.r ∧ t.p.b = s.p.b ∧ t.p.d = s.p.d ∧ t.p.c = s.p.c ∧
    (i = .sei → t.p.i = true) ∧ (i ≠ .sei → t.p.i = s.p.i)) ∧
  (∀ (i : Instr) (s : State) (q : Flags), (q.z = s.p.z ∨ ∀ off, i ≠ .bneRel off) →
    onNext (fun t => { t with p := q }) (exec i { s with p := q }) = onNext (fun t => { t with p := q }) (exec i s)) ∧
  (∀ s t : State, resetCore s = .next t →
    t.p = { n := false, v := false, r := true, b := false, d := false, i := false, z := false, c := false })

/-! ### Invariants -/

/-- Rule R28: the reserved flag is true at construction, after reset, in every snapshot, and no step writes it
false. -/
def Obligations.ReservedFlagAlwaysTrue : Prop :=
  (∀ (ram rom : List Byte) (pol : UndefPolicy), (construct ram rom pol).p.r = true) ∧
  (∀ s t : State, resetCore s = .next t → t.p.r = true) ∧
  (∀ s t : State, s.p.r = true → step s = .next t → t.p.r = true) ∧
  (∀ s : State, s.p.r = true → (inspectRegisters s).p.r = true)

/-- Every step keeps a legal state legal: reserved flag true, image length legal, memory canonical and listing only
bytes that have storage. -/
def Obligations.StepKeepsLegal : Prop :=
  ∀ s t : State, Legal s → step s = .next t → Legal t

/-- The state after reset is legal (its memory and image length are the model's choice, logs 2 and 3). -/
def Obligations.ResetStateIsLegal : Prop := Legal State.reset

/-- Construction gives a legal state, and reset and the recording of a fault keep one. With a RAM list or an image past
the spec's lengths the first clause rests on the model's truncation (log 15); the last one, for a faulting step, on the
state a fault leaves (rule R105, D10; log 6). -/
def Obligations.HostOperationsKeepLegal : Prop :=
  (∀ (ram rom : List Byte) (pol : UndefPolicy), rom ≠ [] → Legal (construct ram rom pol)) ∧
  (∀ s t : State, Legal s → resetCore s = .next t → Legal t) ∧
  (∀ (s u : State) (r : Except Fault Nat), Legal s → hostStep s = some (u, r) → Legal u)

/-- Every run, however long, keeps a legal state legal, its configuration and its ROM bytes, and never passes a
fault. -/
def Obligations.RunsKeepLegalAndRom : Prop :=
  ∀ (n : Nat) (s t : State), Legal s → s.fault = none → RunsTo n s t →
    Legal t ∧ t.fault = none ∧ t.cfg = s.cfg ∧ ∀ addr : Word, 0x8000 ≤ addr.toNat → peek t addr = peek s addr

/-! ### Faults -/

/-- Every fault a step reports names the instruction's address and has its cause in the spec's list (rules R221 to
R224; decisions D7, D9): a fetch of one of the instruction's bytes, the data read of LDA abs,X, the data write of STA
abs, a store to the ROM window, or an undefined byte under the fault policy. -/
def Obligations.StepFaultsAreAccountedFor : Prop :=
  ∀ (s : State) (f : Fault), step s = .fault f → s.fault = none ∧
    match f with
    | .unmappedAddress addr .fetch pc0 =>
      pc0 = some s.pc ∧ (addr = s.pc ∨ addr = s.pc + 1#16 ∨ addr = s.pc + 2#16) ∧
        hasStorage s.cfg addr = false ∧ region addr ≠ .io
    | .unmappedAddress addr .read pc0 =>
      pc0 = some s.pc ∧ hasStorage s.cfg addr = false ∧ region addr ≠ .io ∧
        ∃ base t, fetchInstr s = .ok (.ldaAbsX base, t) ∧ addr = base + s.x.zeroExtend 16
    | .unmappedAddress addr .write pc0 =>
      pc0 = some s.pc ∧ region addr = .unmapped ∧ ∃ t, fetchInstr s = .ok (.staAbs addr, t)
    | .romWrite addr pc0 =>
      pc0 = s.pc ∧ 0x8000 ≤ addr.toNat ∧ ∃ t, fetchInstr s = .ok (.staAbs addr, t)
    | .unimplementedOpcode op pc0 =>
      pc0 = s.pc ∧ s.cfg.undefPolicy = .fault ∧ definedOpcode op = false ∧ ∃ t, fetch8 s s.pc = .ok (op, t)

/-- Rule R223: raised only for a byte with no mapping, only under the fault policy, recording the byte and its
address; never under the no-op policy. -/
def Obligations.UnimplementedOnlyUnderFaultPolicy : Prop :=
  (∀ (s : State) (op : Byte) (pc0 : Word), step s = .fault (.unimplementedOpcode op pc0) →
    s.cfg.undefPolicy = .fault ∧ definedOpcode op = false ∧ pc0 = s.pc ∧ ∃ t, fetch8 s s.pc = .ok (op, t)) ∧
  (∀ (s : State) (op : Byte) (pc0 : Word), s.cfg.undefPolicy = .nop → step s ≠ .fault (.unimplementedOpcode op pc0)) ∧
  (∀ (s t : State) (op : Byte), s.fault = none → s.cfg.undefPolicy = .fault → definedOpcode op = false →
    fetch8 s s.pc = .ok (op, t) → hostStep s = some (recordFault s (.unimplementedOpcode op s.pc),
      .error (.unimplementedOpcode op s.pc)))

/-! ### Reset and the host -/

/-- Rules R35 and R250: every register zero, every flag false but the reserved one, PC from the word at 0xFFFC. -/
def Obligations.ResetLoadsTheVector : Prop :=
  ∀ s : State,
    (∀ w t, readWord s 0xFFFC#16 .read none = .ok (w, t) →
      ∃ u, resetCore s = .next u ∧ u.a = 0#8 ∧ u.x = 0#8 ∧ u.y = 0#8 ∧ u.sp = 0#8 ∧ u.pc = w ∧
        u.p = { n := false, v := false, r := true, b := false, d := false, i := false, z := false, c := false }) ∧
    (∀ f, readWord s 0xFFFC#16 .read none = .error f → resetCore s = .fault f)

/-- Reset touches no memory and no configuration and takes no draw (rule R252, D16); that it leaves no fault record
and no cycle count is the model's choice (logs 8 and 5). -/
def Obligations.ResetTouchesNothingElse : Prop :=
  ∀ s t : State, resetCore s = .next t →
    t.mem = s.mem ∧ t.cfg = s.cfg ∧ t.draws = s.draws ∧ t.fault = none ∧ t.cycles = none

/-- Rule R253: a second reset gives the same program counter, and indeed the same state. -/
def Obligations.ResetIsIdempotent : Prop :=
  ∀ s t : State, resetCore s = .next t → ∃ u, resetCore t = .next u ∧ u.pc = t.pc ∧ u = t

/-- Reset completes exactly when the image holds both vector bytes (rule R251, D7), with PC from those bytes. -/
def Obligations.ResetNeedsTheVectorBytes : Prop :=
  ∀ s : State,
    (s.cfg.romLen ≤ 0x7FFC → resetCore s = .fault (.unmappedAddress 0xFFFC#16 .read none)) ∧
    (s.cfg.romLen = 0x7FFD → resetCore s = .fault (.unmappedAddress 0xFFFD#16 .read none)) ∧
    (0x7FFE ≤ s.cfg.romLen → ∃ t, resetCore s = .next t ∧
      t.pc = leWord (Memory.read s.mem 0xFFFC) (Memory.read s.mem 0xFFFD))

/-- The power-on state (rule R34, D20); its first step fetches at 0x0000 in RAM (rule R255). -/
def Obligations.PowerOnState : Prop :=
  ∀ (ram rom : List Byte) (pol : UndefPolicy),
    let s := construct ram rom pol
    s.a = 0#8 ∧ s.x = 0#8 ∧ s.y = 0#8 ∧ s.sp = 0#8 ∧ s.pc = 0#16 ∧ s.fault = none ∧ s.cfg.undefPolicy = pol ∧
    s.p = { n := false, v := false, r := true, b := false, d := false, i := false, z := false, c := false } ∧
    fetch8 s s.pc = .ok (Memory.read s.mem 0, { s with pc := 1#16 })

/-- `State.reset` is what reset leaves of a core constructed with blank RAM and a blank full-size ROM under the
default policy. The blank images are the model's choice (logs 2 and 3). -/
def Obligations.ResetStateIsResetOfBlankCore : Prop :=
  resetCore (construct (List.replicate 0x800 0#8) (List.replicate 0x8000 0#8) .fault) = .next State.reset

/-- A store to RAM is seen by the next fetch of the address, with nothing between (rule R69, D15). -/
def Obligations.StoreSeenByNextFetch : Prop :=
  ∀ (ea pc0 : Word) (s t : State), Memory.wf s.mem = true → ea.toNat ≤ 0x07FF → exec (.staAbs ea) s = .next t →
    fetch8 { t with pc := ea } pc0 = .ok (s.a, { t with pc := ea + 1#16 })

/-- Rule R241: the snapshot is the register file; after a fault its values are free (log 9), but R is still true. -/
def Obligations.InspectRegistersIsTheRegisterFile : Prop :=
  (∀ s : State, s.fault = none →
    inspectRegisters s = { a := s.a, x := s.x, y := s.y, sp := s.sp, pc := s.pc, p := s.p }) ∧
  (∀ (s : State) (f : Fault), s.fault = some f → (inspectRegisters s).p.r = true)

/-- The snapshot byte: N V R B D I Z C from bit 7 down (rule R29, D13). -/
def Obligations.FlagsPackInListOrder : Prop :=
  ∀ p : Flags,
    (packFlags p).getLsbD 7 = p.n ∧ (packFlags p).getLsbD 6 = p.v ∧ (packFlags p).getLsbD 5 = p.r ∧
    (packFlags p).getLsbD 4 = p.b ∧ (packFlags p).getLsbD 3 = p.d ∧ (packFlags p).getLsbD 2 = p.i ∧
    (packFlags p).getLsbD 1 = p.z ∧ (packFlags p).getLsbD 0 = p.c

/-- Rule R119: the four modular operations, as arithmetic on numbers. -/
def Obligations.AluOperationsAreModular : Prop :=
  (∀ v : Byte, (inc8 v).toNat = (v.toNat + 1) % 256) ∧
  (∀ v : Byte, ((dec8 v).toNat : Int) = ((v.toNat : Int) - 1) % 256) ∧ dec8 0x00#8 = 0xFF#8 ∧
  (∀ (base : Word) (x : Byte), (addx16 base x).toNat = (base.toNat + x.toNat) % 65536) ∧
  (∀ (base : Word) (off : Byte), ((addrel16 base off).toNat : Int) = ((base.toNat : Int) + off.toInt) % 65536)

/-! ### Completion of a step -/

/-- Where an instruction's own bytes are stored at PC and no fault is recorded, the step completes, but for exactly
three cases: an LDA abs,X from an address that is neither stored nor the stub's, a STA to an address that is neither RAM
nor the stub's (rules R52, R141 and R144), and an undefined byte under the fault policy (rule R203). -/
def Obligations.StepCompletesWhereBytesAreStored : Prop :=
  ∀ (s : State) (i : Instr), s.fault = none → WellFormed s.cfg.undefPolicy i = true →
    (∀ (k : Nat) (b : Byte), (encode i)[k]? = some b → peek s (s.pc + BitVec.ofNat 16 k) = some b) →
    ((∃ t, step s = .next t) ↔
      ¬ ((∃ base, i = .ldaAbsX base ∧ peek s (base + s.x.zeroExtend 16) = none ∧
            region (base + s.x.zeroExtend 16) ≠ .io) ∨
          (∃ ea, i = .staAbs ea ∧ region ea ≠ .ram ∧ region ea ≠ .io) ∨
          (∃ op, i = .unimplemented op)))
end

