-- ==== Sys2Proof/Laws/Memory.lean ====
section
/-! SUPPORT. The laws of the memory list: reads after writes, and every operation keeps the canonical form. -/

namespace Sys2Proof.Machine

/-- An address below every listed one reads as unlisted. -/
theorem Memory.read_of_all_gt {m : Memory} {k : Nat} (h : m.all (fun d => decide (k < d.1)) = true) :
    Memory.read m k = unlistedByte := by
  induction m with
  | nil => rfl
  | cons c m ih =>
    simp only [List.all_cons, Bool.and_eq_true, decide_eq_true_eq] at h
    rw [Memory.read, if_neg (by omega), ih h.2]

/-- The three parts of the canonical form of a listed memory. -/
theorem Memory.wf_cons {c : Host.Cell} {m : Memory} :
    Memory.wf (c :: m) = true ↔
      c.2 ≠ unlistedByte ∧ m.all (fun d => decide (c.1 < d.1)) = true ∧ Memory.wf m = true := by
  simp [Memory.wf, and_assoc]

/-- Every entry of a written memory is the new one or an old one. -/
theorem Memory.mem_write {m : Memory} {k : Nat} {v : Byte} {c : Host.Cell} (h : c ∈ Memory.write m k v) :
    c = (k, v) ∨ c ∈ m := by
  induction m with
  | nil => rw [Memory.write] at h; split at h <;> simp_all
  | cons d m ih =>
    rw [Memory.write] at h
    (repeat' split at h) <;> simp_all <;> tauto

/-- A write above a bound keeps every listed address above it. -/
theorem Memory.write_all_gt {m : Memory} {j k : Nat} {v : Byte}
    (h : m.all (fun d => decide (j < d.1)) = true) (hk : j < k) :
    (Memory.write m k v).all (fun d => decide (j < d.1)) = true := by
  rw [List.all_eq_true] at h ⊢
  intro d hd
  rcases Memory.mem_write hd with rfl | hd
  · exact decide_eq_true hk
  · exact h d hd

/-- A write keeps the canonical form. -/
theorem Memory.write_wf {m : Memory} (k : Nat) (v : Byte) (h : Memory.wf m = true) :
    Memory.wf (Memory.write m k v) = true := by
  induction m with
  | nil => rw [Memory.write]; split <;> simp_all [Memory.wf]
  | cons c m ih =>
    obtain ⟨hc, hall, hm⟩ := Memory.wf_cons.mp h
    rw [Memory.write]
    split
    · rename_i hlt
      split
      · exact h
      · rename_i hv
        refine Memory.wf_cons.mpr ⟨hv, ?_, h⟩
        rw [List.all_eq_true] at hall ⊢
        intro d hd
        rcases List.mem_cons.mp hd with rfl | hd
        · simpa using hlt
        · have := hall d hd
          simp only [decide_eq_true_eq] at this ⊢
          omega
    · split
      · rename_i heq
        split
        · exact hm
        · rename_i hv
          exact Memory.wf_cons.mpr ⟨hv, by simpa [heq] using hall, hm⟩
      · exact Memory.wf_cons.mpr ⟨hc, Memory.write_all_gt hall (by omega), ih hm⟩

/-- A read after a write to the same address gives the byte written (rule R55). -/
theorem Memory.read_write_same {m : Memory} (k : Nat) (v : Byte) (h : Memory.wf m = true) :
    Memory.read (Memory.write m k v) k = v := by
  induction m with
  | nil => rw [Memory.write]; split <;> simp_all [Memory.read]
  | cons c m ih =>
    obtain ⟨-, hall, hm⟩ := Memory.wf_cons.mp h
    rw [Memory.write]
    split
    · rename_i hlt
      split
      · rename_i hv
        rw [hv, Memory.read, if_neg (by omega)]
        refine Memory.read_of_all_gt ?_
        rw [List.all_eq_true] at hall ⊢
        intro d hd
        have := hall d hd
        simp only [decide_eq_true_eq] at this ⊢
        omega
      · rw [Memory.read, if_pos rfl]
    · split
      · rename_i heq
        split
        · rename_i hv
          rw [hv]
          exact Memory.read_of_all_gt (heq ▸ hall)
        · rw [Memory.read, if_pos rfl]
      · rw [Memory.read, if_neg (by omega), ih hm]

/-- A write leaves every other address alone. -/
theorem Memory.read_write_other {m : Memory} {j k : Nat} (v : Byte) (hjk : j ≠ k) :
    Memory.read (Memory.write m k v) j = Memory.read m j := by
  induction m with
  | nil => rw [Memory.write]; split <;> simp [Memory.read, hjk.symm]
  | cons c m ih =>
    rw [Memory.write]
    split
    · split
      · rfl
      · simp [Memory.read, hjk.symm]
    · split
      · rename_i heq
        split <;> simp [Memory.read, hjk.symm, ← heq]
      · simp [Memory.read, ih]

/-- Loading a run of bytes keeps the canonical form. -/
theorem Memory.load_wf {m : Memory} (base : Nat) (bs : List Byte) (h : Memory.wf m = true) :
    Memory.wf (Memory.load m base bs) = true := by
  induction bs generalizing m base with
  | nil => exact h
  | cons b bs ih => exact ih _ (Memory.write_wf base b h)

/-- Loading a run leaves the addresses outside it alone. -/
theorem Memory.read_load_outside {m : Memory} {base j : Nat} (bs : List Byte)
    (h : j < base ∨ base + bs.length ≤ j) : Memory.read (Memory.load m base bs) j = Memory.read m j := by
  induction bs generalizing m base with
  | nil => rfl
  | cons b bs ih =>
    simp only [List.length_cons] at h
    rw [Memory.load, ih (by omega), Memory.read_write_other _ (by omega)]

/-- Inside a loaded run each address reads as the byte given for it. -/
theorem Memory.read_load_inside {m : Memory} {base : Nat} (bs : List Byte) (h : Memory.wf m = true) {k : Nat}
    (hk : k < bs.length) : Memory.read (Memory.load m base bs) (base + k) = bs[k] := by
  induction bs generalizing m base k with
  | nil => simp at hk
  | cons b bs ih =>
    rw [Memory.load]
    cases k with
    | zero =>
      rw [Memory.read_load_outside _ (by omega)]
      simpa using Memory.read_write_same base b h
    | succ k =>
      have := ih (base := base + 1) (Memory.write_wf base b h) (k := k) (by simpa using hk)
      rw [show base + (k + 1) = base + 1 + k by omega, this, List.getElem_cons_succ]

/-- Loading blank bytes into an empty memory lists nothing. -/
theorem Memory.load_blank (base n : Nat) : Memory.load [] base (List.replicate n unlistedByte) = [] := by
  induction n generalizing base with
  | zero => rfl
  | succ n ih => rw [List.replicate_succ, Memory.load, Memory.write, if_pos rfl, ih]

/-- The memory of the reset state is canonical. -/
theorem reset_mem_wf : Memory.wf State.reset.mem = true := rfl

/-- Placing bytes keeps the canonical form. -/
theorem placeBytes_wf {m : Memory} (addr : Word) (bs : List Byte) (h : Memory.wf m = true) :
    Memory.wf (placeBytes m addr bs) = true := by
  induction bs generalizing m addr with
  | nil => exact h
  | cons b bs ih => exact ih _ (Memory.write_wf _ b h)

end Sys2Proof.Machine
end

