-- ==== Sys2Proof/Laws/State.lean ====
section
/-! SUPPORT. One lemma per field per named update of the state, all by `rfl`. -/

namespace Sys2Proof.Machine

section Consume
variable (m : Mode) (s : State)
@[simp] theorem consume_a : (consume m s).a = s.a := rfl
@[simp] theorem consume_x : (consume m s).x = s.x := rfl
@[simp] theorem consume_y : (consume m s).y = s.y := rfl
@[simp] theorem consume_sp : (consume m s).sp = s.sp := rfl
@[simp] theorem consume_pc : (consume m s).pc = s.pc + BitVec.ofNat 16 m.length := rfl
@[simp] theorem consume_p : (consume m s).p = s.p := rfl
@[simp] theorem consume_mem : (consume m s).mem = s.mem := rfl
@[simp] theorem consume_cfg : (consume m s).cfg = s.cfg := rfl
@[simp] theorem consume_fault : (consume m s).fault = s.fault := rfl
@[simp] theorem consume_draws : (consume m s).draws = s.draws := rfl
@[simp] theorem consume_cycles : (consume m s).cycles = s.cycles := rfl
end Consume

section Retire
variable (k : Kind) (m : Mode) (o : Operand) (r : Option Byte) (taken : Bool) (s : State)
@[simp] theorem retire_a : (retire k m o r taken s).a = s.a := rfl
@[simp] theorem retire_x : (retire k m o r taken s).x = s.x := rfl
@[simp] theorem retire_y : (retire k m o r taken s).y = s.y := rfl
@[simp] theorem retire_sp : (retire k m o r taken s).sp = s.sp := rfl
@[simp] theorem retire_pc : (retire k m o r taken s).pc = s.pc := rfl
@[simp] theorem retire_p : (retire k m o r taken s).p = updateFlags k r s.p := rfl
@[simp] theorem retire_mem : (retire k m o r taken s).mem = s.mem := rfl
@[simp] theorem retire_cfg : (retire k m o r taken s).cfg = s.cfg := rfl
@[simp] theorem retire_fault : (retire k m o r taken s).fault = s.fault := rfl
@[simp] theorem retire_draws : (retire k m o r taken s).draws = s.draws := rfl
@[simp] theorem retire_cycles : (retire k m o r taken s).cycles = some (cycleCost k m o taken) := rfl
end Retire

section RecordFault
variable (s : State) (f : Fault)
@[simp] theorem recordFault_a : (recordFault s f).a = s.a := rfl
@[simp] theorem recordFault_x : (recordFault s f).x = s.x := rfl
@[simp] theorem recordFault_y : (recordFault s f).y = s.y := rfl
@[simp] theorem recordFault_sp : (recordFault s f).sp = s.sp := rfl
@[simp] theorem recordFault_pc : (recordFault s f).pc = s.pc := rfl
@[simp] theorem recordFault_p : (recordFault s f).p = s.p := rfl
@[simp] theorem recordFault_mem : (recordFault s f).mem = s.mem := rfl
@[simp] theorem recordFault_cfg : (recordFault s f).cfg = s.cfg := rfl
@[simp] theorem recordFault_fault : (recordFault s f).fault = some f := rfl
@[simp] theorem recordFault_draws : (recordFault s f).draws = s.draws := rfl
@[simp] theorem recordFault_cycles : (recordFault s f).cycles = s.cycles := rfl
end RecordFault

end Sys2Proof.Machine
end

