-- ==== Sys2Proof/Laws/Bus.lean ====
section
/-! SUPPORT. One lemma per bus and fetch operation that says once everything it can do. -/

namespace Sys2Proof.Machine

/-- What is stored depends on the memory and the configuration alone. -/
theorem peek_congr {s t : State} (hm : t.mem = s.mem) (hc : t.cfg = s.cfg) (addr : Word) :
    peek t addr = peek s addr := by
  unfold peek
  rw [hm, hc]

/-- What is stored is what a bus read gives. -/
theorem busRead_of_peek {s : State} {addr : Word} {b : Byte} (acc : Access) (pc0 : Option Word)
    (h : peek s addr = some b) : busRead s addr acc pc0 = .ok (b, s) := by
  unfold peek at h
  split at h
  · rename_i hs
    cases h
    unfold busRead
    unfold hasStorage at hs
    cases hr : region addr <;> simp_all
  · cases h

/-- A stored byte other than the one written is as before. -/
theorem peek_write_other {s : State} {addr other : Word} (v : Byte) (h : other ≠ addr) :
    peek { s with mem := Memory.write s.mem addr.toNat v } other = peek s other := by
  unfold peek
  simp only
  rw [Memory.read_write_other _ fun e => h (BitVec.eq_of_toNat_eq e)]

/-- What a completed bus read is: a stored byte with nothing changed, or a draw (rules R52 and R57). -/
theorem busRead_ok_cases {s t : State} {addr : Word} {acc : Access} {pc0 : Option Word} {b : Byte}
    (h : busRead s addr acc pc0 = .ok (b, t)) :
    (hasStorage s.cfg addr = true ∧ b = Memory.read s.mem addr.toNat ∧ t = s) ∨
    (region addr = .io ∧ b = Config.ioDraw s.draws ∧ t = { s with draws := s.draws + 1 }) := by
  unfold busRead at h
  cases hr : region addr with
  | ram => simp only [hr] at h; cases h; exact .inl ⟨by simp [hasStorage, hr], rfl, rfl⟩
  | io => simp only [hr] at h; cases h; exact .inr ⟨rfl, rfl, rfl⟩
  | rom =>
    simp only [hr] at h
    split at h
    · rename_i hin
      cases h
      exact .inl ⟨by simp only [hasStorage, hr, hin], rfl, rfl⟩
    · cases h
  | unmapped => simp only [hr] at h; cases h

/-- A bus read of an address with storage gives the stored byte and changes nothing. -/
theorem busRead_of_hasStorage {s : State} {addr : Word} (acc : Access) (pc0 : Option Word)
    (h : hasStorage s.cfg addr = true) :
    busRead s addr acc pc0 = .ok (Memory.read s.mem addr.toNat, s) := by
  unfold busRead
  unfold hasStorage at h
  cases hr : region addr <;> simp_all

/-- What a faulting bus read is: the address has no storage and is no stub address (rules R56 and R59). -/
theorem busRead_error_cases {s : State} {addr : Word} {acc : Access} {pc0 : Option Word} {f : Fault}
    (h : busRead s addr acc pc0 = .error f) :
    f = .unmappedAddress addr acc pc0 ∧ hasStorage s.cfg addr = false ∧ region addr ≠ .io := by
  unfold busRead at h
  unfold hasStorage
  cases hr : region addr with
  | ram => simp [hr] at h
  | io => simp [hr] at h
  | rom =>
    simp only [hr] at h
    split at h
    · cases h
    · rename_i hout
      cases h
      exact ⟨rfl, hout, by simp⟩
  | unmapped =>
    simp only [hr] at h
    cases h
    exact ⟨rfl, rfl, by simp⟩

/-- What a completed bus write is: a byte stored in RAM, or nothing at the stub (rules R55 and R57). -/
theorem busWrite_ok_cases {s t : State} {addr : Word} {v : Byte} {pc0 : Word} (h : busWrite s addr v pc0 = .ok t) :
    (region addr = .ram ∧ t = { s with mem := Memory.write s.mem addr.toNat v }) ∨ (region addr = .io ∧ t = s) := by
  unfold busWrite at h
  cases hr : region addr <;> simp_all

/-- What a faulting bus write is (rules R58 and R59). -/
theorem busWrite_error_cases {s : State} {addr : Word} {v : Byte} {pc0 : Word} {f : Fault}
    (h : busWrite s addr v pc0 = .error f) :
    (region addr = .rom ∧ f = .romWrite addr pc0) ∨
    (region addr = .unmapped ∧ f = .unmappedAddress addr .write (some pc0)) := by
  unfold busWrite at h
  cases hr : region addr <;> simp_all

/-- The four regions as ranges of addresses (rule R54). -/
theorem region_eq_ram {addr : Word} : region addr = .ram ↔ addr.toNat ≤ 0x07FF := by
  unfold region
  (repeat' split) <;> simp_all

/-- A fetch of a stored byte gives it, moves PC on by one and changes nothing else. -/
theorem fetch8_of_peek {s : State} {b : Byte} (pc0 : Word) (h : peek s s.pc = some b) :
    fetch8 s pc0 = .ok (b, { s with pc := s.pc + 1#16 }) := by
  simp [fetch8, busRead_of_peek .fetch (some pc0) h]

/-- A completed fetch is a bus read at PC; it moves PC on by one and may take a draw, nothing else (rule R101). -/
theorem fetch8_ok {s t : State} {pc0 : Word} {b : Byte} (h : fetch8 s pc0 = .ok (b, t)) :
    t = { s with pc := s.pc + 1#16, draws := t.draws } := by
  unfold fetch8 at h
  split at h
  · cases h
  · rename_i b' u hread
    cases h
    obtain ⟨-, -, rfl⟩ | ⟨-, -, rfl⟩ := busRead_ok_cases hread <;> rfl

/-- A faulting fetch faults at PC with the fetch access (rules R101 and R221). -/
theorem fetch8_error {s : State} {pc0 : Word} {f : Fault} (h : fetch8 s pc0 = .error f) :
    f = .unmappedAddress s.pc .fetch (some pc0) ∧ hasStorage s.cfg s.pc = false := by
  unfold fetch8 at h
  split at h
  · rename_i f' hread
    cases h
    exact ⟨(busRead_error_cases hread).1, (busRead_error_cases hread).2.1⟩
  · cases h

/-- A completed instruction fetch changes PC and the draws only. -/
theorem fetchInstr_ok {s t : State} {i : Instr} (h : fetchInstr s = .ok (i, t)) :
    t = { s with pc := t.pc, draws := t.draws } := by
  unfold fetchInstr at h
  split at h
  · cases h
  · rename_i op t1 h1
    have e1 := fetch8_ok h1
    split at h
    · cases h; rw [e1]
    · split at h
      · cases h
      · rename_i b u h2
        have e2 := fetch8_ok h2
        cases h
        rw [e2, e1]
    · split at h
      · cases h
      · rename_i l u h2
        have e2 := fetch8_ok h2
        split at h
        · cases h
        · rename_i b w h3
          have e3 := fetch8_ok h3
          cases h
          rw [e3, e2, e1]

/-- `reset()`'s vector read and every other `read_word` is two bus reads (rule R53). -/
theorem readWord_ok_cases {s u : State} {addr : Word} {acc : Access} {pc0 : Option Word} {w : Word}
    (h : readWord s addr acc pc0 = .ok (w, u)) :
    ∃ l t hi, busRead s addr acc pc0 = .ok (l, t) ∧ busRead t (addr + 1#16) acc pc0 = .ok (hi, u) ∧
      w = leWord l hi := by
  unfold readWord at h
  split at h
  · cases h
  · rename_i l t h1
    split at h
    · cases h
    · rename_i hi u' h2
      cases h
      exact ⟨l, t, hi, h1, h2, rfl⟩

/-- Going on after a bus access completes only where the access did. -/
theorem orFault_next {α : Type} {r : Except Fault α} {k : α → Result} {t : State} (h : orFault r k = .next t) :
    ∃ v, r = .ok v ∧ k v = .next t := by
  cases r with
  | error f => cases h
  | ok v => exact ⟨v, rfl, h⟩

end Sys2Proof.Machine
end

