-- ==== Sys2Proof/Laws/Decode.lean ====
section
/-! SUPPORT. The laws of bytes and words, and of the opcode lookup. -/

namespace Sys2Proof

/-- `(h : l) = h * 256 + l` (rule R9). -/
theorem leWord_toNat (l h : Byte) : (leWord l h).toNat = h.toNat * 256 + l.toNat := by
  unfold leWord
  rw [BitVec.toNat_append, Nat.shiftLeft_eq, ← Nat.shiftLeft_eq,
    ← Nat.shiftLeft_add_eq_or_of_lt l.isLt, Nat.shiftLeft_eq]

@[simp] theorem leWord_lo_hi (w : Word) : leWord (loByte w) (hiByte w) = w := by
  apply BitVec.eq_of_toNat_eq
  rw [leWord_toNat]
  simp only [loByte, hiByte, BitVec.extractLsb'_toNat, Nat.shiftRight_eq_div_pow]
  omega

@[simp] theorem loByte_leWord (l h : Byte) : loByte (leWord l h) = l := by
  apply BitVec.eq_of_toNat_eq
  simp only [loByte, BitVec.extractLsb'_toNat, Nat.shiftRight_zero, leWord_toNat]
  omega

@[simp] theorem hiByte_leWord (l h : Byte) : hiByte (leWord l h) = h := by
  apply BitVec.eq_of_toNat_eq
  simp only [hiByte, BitVec.extractLsb'_toNat, leWord_toNat, Nat.shiftRight_eq_div_pow]
  omega

/-- A byte has no row exactly when it is undefined (rule R87). -/
theorem lookupOpcode_none_iff (op : Byte) (rows : List (Byte × OpcodeForm)) :
    lookupOpcode op rows = none ↔ (rows.map Prod.fst).contains op = false := by
  induction rows with
  | nil => simp [lookupOpcode]
  | cons row rows ih =>
    rw [lookupOpcode]
    split <;> simp_all

/-- An undefined byte decodes by the policy alone (rules R87 and R104). -/
theorem decodeOpcode_undefined {pol : UndefPolicy} {op : Byte} (h : definedOpcode op = false) :
    decodeOpcode pol op = (match pol with | .nop => .whole (.nop op) | .fault => .whole (.unimplemented op)) := by
  have hrow := (lookupOpcode_none_iff op opcodeTable).mpr h
  cases pol <;> simp only [decodeOpcode, hrow]

end Sys2Proof
end

