-- ==== Sys2Proof/Laws/PerInstr.lean ====
section
/-! SUPPORT. Statements made instruction by instruction: family RoundTrip, that decoding an instruction's own bytes
gives it back whatever follows them. -/

namespace Sys2Proof.Laws.RoundTrip

/-- Decoding the bytes of a well-formed instruction gives it back and leaves what follows. -/
def Statement (i : Instr) : Prop :=
  ∀ (pol : UndefPolicy) (rest : List Byte), WellFormed pol i = true → decode pol (encode i ++ rest) = .ok (i, rest)

theorem jmpAbs (target : Word) : Statement (.jmpAbs target) :=
  fun _ rest _ => congrArg (fun w => Except.ok (Instr.jmpAbs w, rest)) (leWord_lo_hi target)

theorem sei : Statement .sei := fun _ _ _ => rfl

theorem dey : Statement .dey := fun _ _ _ => rfl

theorem staAbs (addr : Word) : Statement (.staAbs addr) :=
  fun _ rest _ => congrArg (fun w => Except.ok (Instr.staAbs w, rest)) (leWord_lo_hi addr)

theorem txs : Statement .txs := fun _ _ _ => rfl

theorem ldyImm (v : Byte) : Statement (.ldyImm v) := fun _ _ _ => rfl

theorem ldxImm (v : Byte) : Statement (.ldxImm v) := fun _ _ _ => rfl

theorem ldaImm (v : Byte) : Statement (.ldaImm v) := fun _ _ _ => rfl

theorem ldaAbsX (base : Word) : Statement (.ldaAbsX base) :=
  fun _ rest _ => congrArg (fun w => Except.ok (Instr.ldaAbsX w, rest)) (leWord_lo_hi base)

theorem bneRel (off : Byte) : Statement (.bneRel off) := fun _ _ _ => rfl

theorem inx : Statement .inx := fun _ _ _ => rfl

theorem nop (op : Byte) : Statement (.nop op) := by
  intro pol rest h
  simp only [WellFormed, Bool.and_eq_true, beq_iff_eq, Bool.not_eq_true'] at h
  simp [encode, decode, decodeOpcode_undefined h.2, h.1]

theorem unimplemented (op : Byte) : Statement (.unimplemented op) := by
  intro pol rest h
  simp only [WellFormed, Bool.and_eq_true, beq_iff_eq, Bool.not_eq_true'] at h
  simp [encode, decode, decodeOpcode_undefined h.2, h.1]

end Sys2Proof.Laws.RoundTrip
end

