-- ==== Sys2Proof/Tests/Slice0.lean ====
section
/-! SUPPORT. Tests on the spec's own worked examples (W<n>) and vectors (V<n>) of spec/95_test_vectors.md, words
written out from spec/30_encoding.md, the WellFormed smoke test, and a witness for the hypotheses of every statement. -/

namespace Sys2Proof.Machine.Tests

/-! ### Helpers -/

/-- The reset state with these bytes stored from PC on. -/
def at_ (pc : Word) (bytes : List Byte) : State :=
  { State.reset with pc := pc, mem := placeBytes [] pc bytes }

/-- Look at what a completed step leaves. -/
def after {α : Type} (look : State → α) (s : State) : Option α :=
  match step s with
  | .next t => some (look t)
  | .fault _ => none
  | .refused _ => none

/-- The fault of a step. -/
def faultOf (s : State) : Option Fault :=
  match step s with
  | .next _ => none
  | .fault f => some f
  | .refused _ => none

def nz (t : State) : Bool × Bool := (t.p.n, t.p.z)

def nopPolicy (s : State) : State := { s with cfg := { s.cfg with undefPolicy := .nop } }

def shortRom (s : State) (n : Nat) : State := { s with cfg := { s.cfg with romLen := n } }

/-! ### WellFormed: an ill-formed term for each check -/

theorem test_wf_nop_needs_nop_policy : WellFormed .fault (.nop 0xEA#8) = false := by decide
theorem test_wf_nop_needs_undefined_byte : WellFormed .nop (.nop 0xA9#8) = false := by decide
theorem test_wf_unimplemented_needs_fault_policy : WellFormed .nop (.unimplemented 0xEA#8) = false := by decide
theorem test_wf_unimplemented_needs_undefined_byte : WellFormed .fault (.unimplemented 0x4C#8) = false := by decide
theorem test_wf_accepts : WellFormed .nop (.nop 0xEA#8) = true ∧ WellFormed .fault (.unimplemented 0xEA#8) = true ∧
    WellFormed .fault .inx = true := by decide

/-! ### Decoding: every constructor's word, written out from rules R81 and R86 (R90's and R91's examples among them) -/

theorem test_decode_jmp : decode .fault [0b01001100#8, 0xFF#8, 0x80#8] = .ok (.jmpAbs 0x80FF#16, []) := rfl
theorem test_decode_sei : decode .fault [0b01111000#8] = .ok (.sei, []) := rfl
theorem test_decode_dey : decode .fault [0b10001000#8] = .ok (.dey, []) := rfl
theorem test_decode_sta : decode .fault [0b10001101#8, 0x00#8, 0x02#8] = .ok (.staAbs 0x0200#16, []) := rfl
theorem test_decode_txs : decode .fault [0b10011010#8] = .ok (.txs, []) := rfl
theorem test_decode_ldy : decode .fault [0b10100000#8, 0x03#8] = .ok (.ldyImm 0x03#8, []) := rfl
theorem test_decode_ldx : decode .fault [0b10100010#8, 0xFF#8] = .ok (.ldxImm 0xFF#8, []) := rfl
theorem test_decode_lda : decode .fault [0b10101001#8, 0x42#8] = .ok (.ldaImm 0x42#8, []) := rfl
theorem test_decode_lda_absx : decode .fault [0b10111101#8, 0x00#8, 0x01#8] = .ok (.ldaAbsX 0x0100#16, []) := rfl
theorem test_decode_bne : decode .fault [0b11010000#8, 0xFA#8] = .ok (.bneRel 0xFA#8, []) := rfl
theorem test_decode_inx : decode .fault [0b11101000#8, 0xD0#8] = .ok (.inx, [0xD0#8]) := rfl
theorem test_decode_nop : decode .nop [0xEA#8, 0xA9#8] = .ok (.nop 0xEA#8, [0xA9#8]) := rfl
theorem test_decode_unimplemented : decode .fault [0xEA#8] = .ok (.unimplemented 0xEA#8, []) := rfl
theorem test_decode_rejects_no_bytes : decode .fault [] = .error .noBytes := rfl
theorem test_decode_rejects_truncated : decode .fault [0x8D#8, 0x00#8] = .error (.truncated 0x8D#8) := rfl
/-- Rule R83: length 1 under `nop`, no length under `fault`. -/
theorem test_undefined_length : (Instr.nop 0xEA#8).length? = some 1 ∧ (Instr.unimplemented 0xEA#8).length? = none := by
  decide
/-- Rules R7 and R87: eleven different defined bytes, which leaves 245 undefined. -/
theorem test_defined_count : (opcodeTable.map Prod.fst).Nodup ∧ opcodeTable.length = 11 := by decide
theorem test_table_word_bytes : decodeTableWord 24 0x80FF4C = some (.jmpAbs 0x80FF#16) := by decide
/-- A row's bits may be shorter than its instruction: the operand bytes are then zero. -/
theorem test_table_word_short : decodeTableWord 8 0xFFFFBD = some (.ldaAbsX 0x0000#16) := by decide

/-! ### Instructions (spec/95_test_vectors.md section 2) -/

theorem test_V1 : after (fun t => (t.a, nz t, t.pc, t.cycles)) { at_ 0x8000#16 [0xA9#8, 0x00#8] with a := 0x55#8 } =
    some (0x00#8, (false, true), 0x8002#16, some 2) := by decide
theorem test_V4 : after (fun t => (t.a, t.pc)) { State.reset with pc := 0xFFFF#16, mem := [(0, 0x01#8), (0xFFFF, 0xA9#8)] } =
    some (0x01#8, 0x0001#16) := by decide
theorem test_V10 : after (fun t => (t.a, nz t, t.cycles)) { at_ 0x8000#16 [0xBD#8, 0xFF#8, 0xFF#8] with x := 0x01#8 } =
    some (0x00#8, (false, true), some 5) := by decide
theorem test_V11 : faultOf { at_ 0x8000#16 [0xBD#8, 0xF0#8, 0x07#8] with x := 0x20#8 } =
    some (.unmappedAddress 0x0810#16 .read (some 0x8000#16)) := by decide
theorem test_V6 : after (fun t => (t.x, nz t, t.cycles)) (at_ 0x8000#16 [0xA2#8, 0xFF#8]) =
    some (0xFF#8, (true, false), some 2) := by decide
theorem test_V8 : after (fun t => (t.y, nz t, t.cycles)) (at_ 0x8000#16 [0xA0#8, 0x90#8]) =
    some (0x90#8, (true, false), some 2) := by decide
theorem test_V15 : after (fun t => (Memory.read t.mem 0x0200, nz t, t.pc, t.cycles))
    { at_ 0x8000#16 [0x8D#8, 0x00#8, 0x02#8] with a := 0x42#8 } =
    some (0x42#8, (false, false), 0x8003#16, some 4) := by decide
theorem test_V17 : faultOf { at_ 0x8000#16 [0x8D#8, 0x00#8, 0x80#8] with a := 0x42#8 } =
    some (.romWrite 0x8000#16 0x8000#16) := by decide
theorem test_V21 : after (fun t => (t.sp, nz t, t.cycles)) { at_ 0x8000#16 [0x9A#8] with x := 0x80#8 } =
    some (0x80#8, (true, false), some 2) := by decide
theorem test_W1 : after (fun t => (t.x, nz t)) { at_ 0x8000#16 [0xE8#8] with x := 0xFF#8 } =
    some (0x00#8, (false, true)) := by decide
theorem test_V22 : after (fun t => (t.x, nz t, t.cycles)) { at_ 0x8000#16 [0xE8#8] with x := 0x7F#8 } =
    some (0x80#8, (true, false), some 2) := by decide
theorem test_W2 : after (fun t => (t.y, nz t)) (at_ 0x8000#16 [0x88#8]) = some (0xFF#8, (true, false)) := by decide
theorem test_V26 : after (fun t => (t.y, nz t, t.cycles)) { at_ 0x8000#16 [0x88#8] with y := 0x80#8 } =
    some (0x7F#8, (false, false), some 2) := by decide
theorem test_W11 : after (fun t => (t.pc, t.cycles)) (at_ 0x8000#16 [0x4C#8, 0xFF#8, 0x80#8]) =
    some (0x80FF#16, some 3) := by decide
theorem test_V34 : after (fun t => (t.pc, t.cycles)) (at_ 0x80FE#16 [0xD0#8, 0xFE#8]) =
    some (0x80FE#16, some 4) := by decide
theorem test_V37 : after (fun t => (t.pc, t.cycles))
    { at_ 0x80FD#16 [0xD0#8, 0x01#8] with p := { Flags.initial with z := true } } =
    some (0x80FF#16, some 2) := by decide
theorem test_V38 : after (fun t => (t.p.i, nz t, t.cycles)) (at_ 0x8000#16 [0x78#8]) =
    some (true, (false, false), some 2) := by decide
theorem test_V42 : after (fun t => (t.pc, t.cycles)) (nopPolicy (at_ 0x8000#16 [0x02#8, 0xA9#8])) =
    some (0x8001#16, some 2) := by decide
theorem test_V43 : faultOf { State.reset with pc := 0xFFFF#16, mem := [(0, 0xA9#8), (0xFFFF, 0xFF#8)] } =
    some (.unimplementedOpcode 0xFF#8 0xFFFF#16) := by decide

/-! ### Fetch, bus, reset -/

theorem test_V19 : faultOf { at_ 0x07FE#16 [0x8D#8] with a := 0x01#8 } =
    some (.unmappedAddress 0x0800#16 .fetch (some 0x07FE#16)) := by decide
theorem test_V44 : faultOf (at_ 0x4000#16 []) = some (.unmappedAddress 0x4000#16 .fetch (some 0x4000#16)) := by decide
theorem test_V47 : resetCore (shortRom State.reset 0x4000) = .fault (.unmappedAddress 0xFFFC#16 .read none) := rfl
/-- V48: vector bytes 34 12, registers arbitrary. -/
theorem test_V48 : resetCore { State.reset with
      a := 0x11#8, x := 0x22#8, y := 0x33#8, sp := 0x44#8, pc := 0x5555#16,
      p := { Flags.initial with n := true, c := true }, mem := [(0xFFFC, 0x34#8), (0xFFFD, 0x12#8)] } =
    .next { State.reset with pc := 0x1234#16, mem := [(0xFFFC, 0x34#8), (0xFFFD, 0x12#8)] } := rfl
/-- Rule R29, the order of the list: N alone is 0x80, R alone 0x20, C alone 0x01. -/
theorem test_pack : packFlags { Flags.initial with n := true, c := true } = 0xA1#8 := by decide
/-- Each of the eleven rows runs as the first instruction after reset (STA stores to 0x0000 in RAM). -/
theorem test_rows_run_first : [0x4C, 0x78, 0x88, 0x8D, 0x9A, 0xA0, 0xA2, 0xA9, 0xBD, 0xD0, 0xE8].map
      (fun op => after (fun t => t.cycles) (State.reset.withFetchWord 8 op)) =
    [some (some 3), some (some 2), some (some 2), some (some 4), some (some 2), some (some 2), some (some 2),
      some (some 2), some (some 4), some (some 3), some (some 2)] := by decide
/-- Where PC's bytes have no storage, the instruction is placed at 0x0000. -/
theorem test_placed_in_ram : after (fun t => (t.a, t.pc)) ((at_ 0x2006#16 []).withFetchWord 16 0x42A9) =
    some (0x42#8, 0x0002#16) := by decide

/-! ### Witnesses: a state and operands for the hypotheses of each statement -/

/-- LDA #$42 at 0x8000. -/
def ldaAt : State := at_ 0x8000#16 [0xA9#8, 0x42#8]

/-- STA $07FF at 0x8000, A = 0x42. -/
def staAt : State := { at_ 0x8000#16 [0x8D#8, 0xFF#8, 0x07#8] with a := 0x42#8 }

theorem ldaAt_legal : Legal ldaAt := ⟨rfl, by decide, by decide, by decide, by decide⟩

theorem witness_OpcodeTableDecodes :
    (0x00#8 ∉ [0x4C#8, 0x78#8, 0x88#8, 0x8D#8, 0x9A#8, 0xA0#8, 0xA2#8, 0xA9#8, 0xBD#8, 0xD0#8, 0xE8#8]) ∧
    (0xFF#8 ∉ [0x4C#8, 0x78#8, 0x88#8, 0x8D#8, 0x9A#8, 0xA0#8, 0xA2#8, 0xA9#8, 0xBD#8, 0xD0#8, 0xE8#8]) := by decide

theorem witness_DecodeOfEncode : WellFormed .nop (.nop 0xFF#8) = true ∧ WellFormed .fault (.staAbs 0xFFFF#16) = true := by
  decide

theorem witness_EncodeOfDecode : decode .nop [0xFF#8, 0x00#8] = .ok (.nop 0xFF#8, [0x00#8]) := rfl

theorem witness_LengthFixedByOpcode :
    decode .fault [0xBD#8, 0x00#8, 0x01#8] = .ok (.ldaAbsX 0x0100#16, []) ∧
    decode .fault [0xBD#8, 0xFF#8, 0xFF#8, 0x00#8] = .ok (.ldaAbsX 0xFFFF#16, [0x00#8]) ∧
    (Instr.ldaAbsX 0x0100#16).length? = some 3 ∧ definedOpcode 0xFF#8 = false ∧ definedOpcode 0x00#8 = false :=
  ⟨rfl, rfl, rfl, by decide, by decide⟩

theorem witness_StepRunsDecodedInstruction : ldaAt.fault = none ∧
    (∃ t, fetchBytes ldaAt.pc (Instr.ldaImm 0x42#8).streamBytes ldaAt = .ok ([0xA9#8, 0x42#8], t)) ∧
    decode ldaAt.cfg.undefPolicy [0xA9#8, 0x42#8] = .ok (.ldaImm 0x42#8, []) := ⟨rfl, ⟨_, rfl⟩, rfl⟩

/-- The instruction's second byte is past the top of the address space (V4). -/
theorem witness_StepRunsStoredInstruction :
    let s : State := { State.reset with pc := 0xFFFF#16, mem := [(0, 0x01#8), (0xFFFF, 0xA9#8)] }
    s.fault = none ∧ WellFormed s.cfg.undefPolicy (.ldaImm 0x01#8) = true ∧
    (∀ (k : Nat) (b : Byte), (encode (.ldaImm 0x01#8))[k]? = some b →
      peek s (s.pc + BitVec.ofNat 16 k) = some b) := by
  refine ⟨rfl, rfl, ?_⟩
  intro k b h
  match k with
  | 0 => cases h; rfl
  | 1 => cases h; rfl
  | k + 2 => simp [encode] at h

/-- One witness per clause: opcode fetch in a hole; an undefined byte at 0xFFFF; the first operand byte of LDA # and of
STA at 0x0800; the second of STA there; a short image for reset. -/
theorem witness_StepFaultsInAccessOrder :
    (∃ f, fetch8 (at_ 0x4000#16 []) 0x4000#16 = .error f) ∧
    (∃ t, fetch8 (at_ 0xFFFF#16 [0xFF#8]) 0xFFFF#16 = .ok (0xFF#8, t) ∧ definedOpcode 0xFF#8 = false) ∧
    (∃ t f, fetch8 (at_ 0x07FF#16 [0xA9#8]) 0x07FF#16 = .ok (0xA9#8, t) ∧
      decodeOpcode .fault 0xA9#8 = .byte .ldaImm ∧ fetch8 t 0x07FF#16 = .error f) ∧
    (∃ t f, fetch8 (at_ 0x07FF#16 [0x8D#8]) 0x07FF#16 = .ok (0x8D#8, t) ∧
      decodeOpcode .fault 0x8D#8 = .word .staAbs ∧ fetch8 t 0x07FF#16 = .error f) ∧
    (∃ t u f, fetch8 (at_ 0x07FE#16 [0x8D#8]) 0x07FE#16 = .ok (0x8D#8, t) ∧
      fetch8 t 0x07FE#16 = .ok (0x00#8, u) ∧ fetch8 u 0x07FE#16 = .error f) ∧
    (∃ f, busRead (shortRom State.reset 0x7FFC) 0xFFFC#16 .read none = .error f) :=
  ⟨⟨_, rfl⟩, ⟨_, rfl, rfl⟩, ⟨_, _, rfl, rfl, rfl⟩, ⟨_, _, rfl, rfl, rfl⟩, ⟨_, _, _, rfl, rfl, rfl⟩, ⟨_, rfl⟩⟩

theorem witness_FetchReadsThenAdvances :
    (∃ b t, busRead (at_ 0x2007#16 []) 0x2007#16 .fetch (some 0x2007#16) = .ok (b, t) ∧ region 0x2007#16 = .io) ∧
    (∃ b t, busRead (at_ 0xFFFF#16 [0xE8#8]) 0xFFFF#16 .fetch (some 0xFFFF#16) = .ok (b, t)) ∧
    (∃ f, busRead (at_ 0x2008#16 []) 0x2008#16 .fetch (some 0x2008#16) = .error f) :=
  ⟨⟨_, _, rfl, rfl⟩, ⟨_, _, rfl⟩, ⟨_, rfl⟩⟩

theorem witness_FaultsAreReturnedAndRecorded : ∃ f, step (at_ 0x4000#16 []) = .fault f := ⟨_, rfl⟩

theorem witness_NoStepAfterFault : ({ ldaAt with fault := some (.romWrite 0x9000#16 0x8002#16) }).fault =
      some (.romWrite 0x9000#16 0x8002#16) ∧
    (∃ u f, hostStep (at_ 0x4000#16 []) = some (u, .error f)) := ⟨rfl, ⟨_, _, rfl⟩⟩

/-- A completed step: also the witness of every statement about `step s = .next t`. -/
theorem witness_CompletedStepReturnsTwoToFive : ∃ t, step ldaAt = .next t := ⟨_, rfl⟩

/-- Every clause of the table: a next state of each constructor, and both or all three costs where there are several. -/
theorem witness_CycleTable :
    ([Instr.jmpAbs 0x4000#16, .sei, .dey, .staAbs 0x2000#16, .txs, .ldyImm 0#8, .ldxImm 0#8, .ldaImm 0#8, .inx,
        .nop 0xEA#8].map fun i => (match exec i State.reset with
          | .next t => t.cycles
          | .fault _ => none
          | .refused _ => none)) =
      [some 3, some 2, some 2, some 4, some 2, some 2, some 2, some 2, some 2, some 2] ∧
    (∃ t, exec (.ldaAbsX 0x0100#16) { State.reset with x := 0xFF#8 } = .next t ∧ t.cycles = some 4) ∧
    (∃ t, exec (.ldaAbsX 0x0101#16) { State.reset with x := 0xFF#8 } = .next t ∧ t.cycles = some 5) ∧
    (∃ t, exec (.bneRel 0xFD#8) { State.reset with pc := 0x80FE#16 } = .next t ∧ t.cycles = some 4) ∧
    (∃ t, exec (.bneRel 0x00#8) { State.reset with pc := 0x80FE#16 } = .next t ∧ t.cycles = some 3) ∧
    (∃ t, exec (.bneRel 0xFD#8) { State.reset with p := { Flags.initial with z := true } } = .next t ∧
      t.cycles = some 2) := by
  refine ⟨by decide, ⟨_, rfl, rfl⟩, ⟨_, rfl, rfl⟩, ⟨_, rfl, rfl⟩, ⟨_, rfl, rfl⟩, ⟨_, rfl, rfl⟩⟩

/-- The edges of every range of the map (rule R52), for AddressDecoding and BusFollowsTheMap. -/
theorem witness_AddressDecoding :
    [0x0000#16, 0x07FF#16, 0x0800#16, 0x1FFF#16, 0x2000#16, 0x2007#16, 0x2008#16, 0x7FFF#16, 0x8000#16,
      0xFFFF#16].map region =
    [.ram, .ram, .unmapped, .unmapped, .io, .io, .unmapped, .unmapped, .rom, .rom] := by decide

/-- The image's last byte and the first address past it (V50). -/
theorem witness_BusFollowsTheMap : (0xBFFF#16).toNat - 0x8000 < (shortRom State.reset 0x4000).cfg.romLen ∧
    (shortRom State.reset 0x4000).cfg.romLen ≤ (0xC000#16).toNat - 0x8000 := by decide

theorem witness_RamHoldsTheByteWritten : Memory.wf ldaAt.mem = true ∧ (0x07FF#16).toNat ≤ 0x07FF := by decide

theorem witness_ConstructionPlacesTheImages : (List.replicate 0x800 0x5A#8).length = 0x800 ∧
    1 ≤ (List.replicate 0x7FFF 0xEA#8).length ∧ (List.replicate 0x7FFF 0xEA#8).length ≤ 0x8000 ∧
    (List.replicate 0x7FFF 0xEA#8).length ≤ 0x7FFF ∧ 0x7FFF < 0x8000 := by
  simp only [List.length_replicate]
  decide

theorem witness_ConfigurationAndRomAreFixed : (∃ t, step staAt = .next t) ∧ (∃ t, resetCore staAt = .next t) :=
  ⟨⟨_, rfl⟩, ⟨_, rfl⟩⟩

theorem witness_LittleEndianWords :
    let s := at_ 0xFFFC#16 [0x34#8, 0x12#8]
    peek s 0xFFFC#16 = some 0x34#8 ∧ peek s (0xFFFC#16 + 1#16) = some 0x12#8 := ⟨rfl, rfl⟩

theorem witness_UnmappedAccessFaults : region 0x0800#16 = .unmapped ∧
    0x07FF#16 + (({ State.reset with x := 0x01#8 }).x).zeroExtend 16 = 0x0800#16 := by decide

/-- For the one-byte statements (TXS, INX, DEY, SEI): the opcode byte is fetched, at the last RAM byte. -/
theorem witness_RunsOneByte (op : Byte) (h : op ∈ [0x9A#8, 0xE8#8, 0x88#8, 0x78#8]) :
    ∃ t, fetch8 (at_ 0x07FF#16 [op]) 0x07FF#16 = .ok (op, t) := by
  simp only [List.mem_cons, List.not_mem_nil, or_false] at h
  rcases h with rfl | rfl | rfl | rfl <;> exact ⟨_, rfl⟩

/-- For the two-byte statements (LDA #, LDX #, LDY #, BNE): the operand byte faults at 0x0800, and is fetched in ROM. -/
theorem witness_RunsTwoBytes (op : Byte) (h : op ∈ [0xA9#8, 0xA2#8, 0xA0#8, 0xD0#8]) :
    (∃ t f, fetch8 (at_ 0x07FF#16 [op]) 0x07FF#16 = .ok (op, t) ∧ fetch8 t 0x07FF#16 = .error f) ∧
    (∃ t u, fetch8 (at_ 0x8000#16 [op, 0x7F#8]) 0x8000#16 = .ok (op, t) ∧ fetch8 t 0x8000#16 = .ok (0x7F#8, u)) := by
  simp only [List.mem_cons, List.not_mem_nil, or_false] at h
  rcases h with rfl | rfl | rfl | rfl <;> exact ⟨⟨_, _, rfl, rfl⟩, ⟨_, _, rfl, rfl⟩⟩

/-- For the three-byte statements (LDA abs,X, STA, JMP): either operand byte faults at 0x0800, or both are fetched. -/
theorem witness_RunsThreeBytes (op : Byte) (h : op ∈ [0xBD#8, 0x8D#8, 0x4C#8]) :
    (∃ t f, fetch8 (at_ 0x07FF#16 [op]) 0x07FF#16 = .ok (op, t) ∧ fetch8 t 0x07FF#16 = .error f) ∧
    (∃ t u f, fetch8 (at_ 0x07FE#16 [op, 0x02#8]) 0x07FE#16 = .ok (op, t) ∧
      fetch8 t 0x07FE#16 = .ok (0x02#8, u) ∧ fetch8 u 0x07FE#16 = .error f) ∧
    (∃ t u w, fetch8 (at_ 0x8000#16 [op, 0xFF#8, 0x80#8]) 0x8000#16 = .ok (op, t) ∧
      fetch8 t 0x8000#16 = .ok (0xFF#8, u) ∧ fetch8 u 0x8000#16 = .ok (0x80#8, w)) := by
  simp only [List.mem_cons, List.not_mem_nil, or_false] at h
  rcases h with rfl | rfl | rfl <;>
    exact ⟨⟨_, _, rfl, rfl⟩, ⟨_, _, _, rfl, rfl, rfl⟩, ⟨_, _, _, rfl, rfl, rfl⟩⟩

/-- Stored, stub and neither, at the edges of the map. -/
theorem witness_LdaAbsoluteXLoadsA :
    peek { ldaAt with x := 0xFF#8 } (0x0700#16 + (0xFF#8).zeroExtend 16) = some 0x00#8 ∧
    region (0x1F08#16 + (0xFF#8).zeroExtend 16) = .io ∧
    (peek { ldaAt with x := 0xFF#8 } (0x0701#16 + (0xFF#8).zeroExtend 16) = none ∧
      region (0x0701#16 + (0xFF#8).zeroExtend 16) ≠ .io) := ⟨rfl, rfl, rfl, by decide⟩

theorem witness_StaAbsoluteStoresA : region 0x07FF#16 = .ram ∧ region 0x2007#16 = .io ∧ region 0x8000#16 = .rom ∧
    region 0x7FFF#16 = .unmapped := by decide

theorem witness_BneBranchesWhenZClear : ldaAt.p.z = false ∧
    ({ ldaAt with p := { Flags.initial with z := true } }).p.z = true := by decide

theorem witness_NopOnlyAdvancesPc :
    let s := nopPolicy (at_ 0xFFFF#16 [0xEA#8])
    s.fault = none ∧ s.cfg.undefPolicy = .nop ∧ definedOpcode 0xEA#8 = false ∧
      ∃ t, fetch8 s s.pc = .ok (0xEA#8, t) := ⟨rfl, rfl, by decide, ⟨_, rfl⟩⟩

/-- Also for the last clause of UnimplementedOnlyUnderFaultPolicy. -/
theorem witness_UndefinedOpcodeFaults :
    let s := at_ 0xFFFF#16 [0xEA#8]
    s.fault = none ∧ s.cfg.undefPolicy = .fault ∧ definedOpcode 0xEA#8 = false ∧
      ∃ t, fetch8 s s.pc = .ok (0xEA#8, t) := ⟨rfl, rfl, by decide, ⟨_, rfl⟩⟩

/-- Whether an instruction's meaning completes in a state. -/
def completes (s : State) (i : Instr) : Bool :=
  match exec i s with
  | .next _ => true
  | .fault _ => false
  | .refused _ => false

/-- Every form completes. NOP and SEI are none of the named exceptions; INX, DEY and TXS are the exception of one clause
each and meet the premises of the others. -/
theorem witness_InstructionFrame :
    ([Instr.jmpAbs 0xFFFF#16, .sei, .dey, .staAbs 0x07FF#16, .txs, .ldyImm 0#8, .ldxImm 0xFF#8, .ldaImm 0x80#8,
      .ldaAbsX 0x2007#16, .bneRel 0x80#8, .inx, .nop 0xEA#8].all (completes ldaAt) = true) ∧
    (∀ i ∈ [Instr.sei, .nop 0xEA#8, .dey, .inx, .txs], (∀ v, i ≠ .ldaImm v) ∧ (∀ b, i ≠ .ldaAbsX b) ∧
      (∀ v, i ≠ .ldxImm v) ∧ (∀ v, i ≠ .ldyImm v) ∧ (∀ ea, i ≠ .staAbs ea) ∧ (∀ w, i ≠ .jmpAbs w) ∧
      (∀ o, i ≠ .bneRel o)) := by
  refine ⟨by decide, ?_⟩
  simp

theorem witness_StoreFrame : (∃ t, exec (.staAbs 0x07FF#16) staAt = .next t) ∧ region 0x07FF#16 = .ram ∧
    Memory.wf staAt.mem = true ∧ (∃ t, exec (.staAbs 0x2000#16) staAt = .next t) ∧ region 0x2000#16 = .io :=
  ⟨⟨_, rfl⟩, rfl, by decide, ⟨_, rfl⟩, rfl⟩

/-- SEI is none of the instructions that read or write A, X, Y or SP. -/
theorem witness_RegistersReadOnlyAsListed : (∀ ea, Instr.sei ≠ .staAbs ea) ∧ (∀ u, Instr.sei ≠ .ldaImm u) ∧
    (∀ b, Instr.sei ≠ .ldaAbsX b) ∧ Instr.sei ≠ .txs ∧ Instr.sei ≠ .inx ∧ (∀ u, Instr.sei ≠ .ldxImm u) ∧
    Instr.sei ≠ .dey ∧ (∀ u, Instr.sei ≠ .ldyImm u) := by
  simp

theorem witness_FlagsFollowTheTable : (∃ t, exec .sei ldaAt = .next t) ∧
    ({ Flags.initial with c := true } : Flags).z = ldaAt.p.z ∧ (∀ off, Instr.sei ≠ .bneRel off) ∧
    (∃ t, resetCore ldaAt = .next t) := ⟨⟨_, rfl⟩, rfl, by simp, ⟨_, rfl⟩⟩

theorem witness_ReservedFlagAlwaysTrue : ldaAt.p.r = true ∧ (∃ t, step ldaAt = .next t) ∧
    (∃ t, resetCore ldaAt = .next t) := ⟨rfl, ⟨_, rfl⟩, ⟨_, rfl⟩⟩

theorem witness_StepKeepsLegal : Legal ldaAt ∧ ∃ t, step ldaAt = .next t := ⟨ldaAt_legal, ⟨_, rfl⟩⟩

theorem witness_HostOperationsKeepLegal : ([0xEA#8] : List Byte) ≠ [] ∧ Legal ldaAt ∧
    (∃ t, resetCore ldaAt = .next t) ∧ (∃ u r, hostStep ldaAt = some (u, r)) :=
  ⟨by decide, ldaAt_legal, ⟨_, rfl⟩, ⟨_, _, rfl⟩⟩

theorem witness_RunsKeepLegalAndRom : Legal ldaAt ∧ ldaAt.fault = none ∧ ∃ t, RunsTo 1 ldaAt t :=
  ⟨ldaAt_legal, rfl, ⟨_, rfl⟩⟩

/-- One fault of each kind and access. -/
theorem witness_StepFaultsAreAccountedFor :
    faultOf (at_ 0x07FE#16 [0x8D#8]) = some (.unmappedAddress 0x0800#16 .fetch (some 0x07FE#16)) ∧
    faultOf (at_ 0x8000#16 [0xBD#8, 0x00#8, 0x08#8]) = some (.unmappedAddress 0x0800#16 .read (some 0x8000#16)) ∧
    faultOf (at_ 0x8000#16 [0x8D#8, 0x08#8, 0x20#8]) = some (.unmappedAddress 0x2008#16 .write (some 0x8000#16)) ∧
    faultOf (at_ 0x8000#16 [0x8D#8, 0xFF#8, 0xFF#8]) = some (.romWrite 0xFFFF#16 0x8000#16) ∧
    faultOf (at_ 0x8000#16 [0xEA#8]) = some (.unimplementedOpcode 0xEA#8 0x8000#16) := by decide

theorem witness_UnimplementedOnlyUnderFaultPolicy :
    (step (at_ 0x8000#16 [0xEA#8]) = .fault (.unimplementedOpcode 0xEA#8 0x8000#16)) ∧
    (nopPolicy (at_ 0x8000#16 [0xEA#8])).cfg.undefPolicy = .nop := ⟨rfl, rfl⟩

theorem witness_ResetLoadsTheVector :
    (∃ w t, readWord ldaAt 0xFFFC#16 .read none = .ok (w, t)) ∧
    (∃ f, readWord (shortRom ldaAt 0x7FFD) 0xFFFC#16 .read none = .error f) := ⟨⟨_, _, rfl⟩, ⟨_, rfl⟩⟩

/-- Also for ResetTouchesNothingElse. -/
theorem witness_ResetIsIdempotent : ∃ t, resetCore { ldaAt with fault := some (.romWrite 0x9000#16 0x8002#16) } = .next t :=
  ⟨_, rfl⟩

theorem witness_ResetNeedsTheVectorBytes : (shortRom ldaAt 0x7FFC).cfg.romLen ≤ 0x7FFC ∧
    (shortRom ldaAt 0x7FFD).cfg.romLen = 0x7FFD ∧ 0x7FFE ≤ (shortRom ldaAt 0x7FFE).cfg.romLen := by decide

theorem witness_StoreSeenByNextFetch : Memory.wf staAt.mem = true ∧ (0x07FF#16).toNat ≤ 0x07FF ∧
    ∃ t, exec (.staAbs 0x07FF#16) staAt = .next t := ⟨by decide, by decide, ⟨_, rfl⟩⟩

theorem witness_InspectRegistersIsTheRegisterFile : ldaAt.fault = none ∧
    (recordFault ldaAt (.romWrite 0x9000#16 0x8002#16)).fault = some (.romWrite 0x9000#16 0x8002#16) := ⟨rfl, rfl⟩

/-- A one-byte instruction at the last RAM byte, with no storage after it, meets the premises and completes. -/
theorem witness_StepCompletesWhereBytesAreStored :
    let s := at_ 0x07FF#16 [0xE8#8]
    s.fault = none ∧ WellFormed s.cfg.undefPolicy .inx = true ∧
    (∀ (k : Nat) (b : Byte), (encode .inx)[k]? = some b → peek s (s.pc + BitVec.ofNat 16 k) = some b) ∧
    ∃ t, step s = .next t := by
  refine ⟨rfl, rfl, ?_, ⟨_, rfl⟩⟩
  intro k b h
  match k with
  | 0 => cases h; rfl
  | k + 1 => simp [encode] at h

/-- Each exception at the edge of its range, and the stub, which is none (rules R57, R141 and R144). -/
theorem witness_StepCompletes_exceptions :
    (peek ldaAt (0x0800#16 + ldaAt.x.zeroExtend 16) = none ∧ region (0x0800#16 + ldaAt.x.zeroExtend 16) ≠ .io) ∧
    (region 0x8000#16 ≠ .ram ∧ region 0x8000#16 ≠ .io) ∧
    (after (fun t => t.cycles) (at_ 0x8000#16 [0xBD#8, 0x07#8, 0x20#8]) = some (some 4) ∧
      after (fun t => t.cycles) (at_ 0x8000#16 [0x8D#8, 0x00#8, 0x20#8]) = some (some 4)) := by
  refine ⟨⟨rfl, by decide⟩, by decide, rfl, rfl⟩

end Sys2Proof.Machine.Tests
end

section
/-! SUPPORT. What a completed instruction, step and reset leave, each said once, and what the bus does not look at. -/

namespace Sys2Proof.Machine

/-! ### Going on after a bus access -/

/-- A change `g` of what a bus access gave, which `f` hides in the next state, is hidden in the outcome. -/
theorem onNext_orFault_map {α : Type} {f : State → State} {g : α → α} {k : α → Result} (r : Except Fault α)
    (h : ∀ x, onNext f (k (g x)) = onNext f (k x)) :
    onNext f (orFault (r.map g) k) = onNext f (orFault r k) := by
  cases r with
  | error _ => rfl
  | ok x => exact h x

/-! ### What the bus looks at -/

/-- A change of the state that the bus does not notice: it leaves the memory, the configuration and the draw counter,
and commutes with the two updates a bus access makes. -/
structure BusIgnores (f : State → State) : Prop where
  mem : ∀ s, (f s).mem = s.mem
  cfg : ∀ s, (f s).cfg = s.cfg
  draws : ∀ s, (f s).draws = s.draws
  setMem : ∀ s m, f { s with mem := m } = { f s with mem := m }
  setDraws : ∀ s n, f { s with draws := n } = { f s with draws := n }

theorem busIgnores_setFlags (q : Flags) : BusIgnores fun s => { s with p := q } :=
  ⟨fun _ => rfl, fun _ => rfl, fun _ => rfl, fun _ _ => rfl, fun _ _ => rfl⟩

/-- A bus read commutes with a change the bus does not notice. -/
theorem busRead_of_busIgnores {f : State → State} (hf : BusIgnores f) (s : State) (addr : Word) (acc : Access)
    (pc0 : Option Word) :
    busRead (f s) addr acc pc0 = (busRead s addr acc pc0).map (Prod.map id f) := by
  unfold busRead
  cases region addr with
  | ram => simp [Except.map, hf.mem]
  | io => simp only [Except.map, Prod.map, id, hf.draws, hf.setDraws s (s.draws + 1)]
  | rom => cases hin : romHas s.cfg addr <;> simp [Except.map, hf.mem, hf.cfg, hin]
  | unmapped => rfl

/-- A bus write commutes with a change the bus does not notice. -/
theorem busWrite_of_busIgnores {f : State → State} (hf : BusIgnores f) (s : State) (addr : Word) (v : Byte)
    (pc0 : Word) : busWrite (f s) addr v pc0 = (busWrite s addr v pc0).map f := by
  unfold busWrite
  cases region addr with
  | ram => simp only [Except.map, hf.mem, hf.setMem s (Memory.write s.mem addr.toNat v)]
  | io | rom | unmapped => rfl

/-! ### What a bus read leaves -/

theorem busRead_ok_state {s t : State} {addr : Word} {acc : Access} {pc0 : Option Word} {b : Byte}
    (h : busRead s addr acc pc0 = .ok (b, t)) : t = { s with draws := t.draws } := by
  obtain ⟨-, -, rfl⟩ | ⟨-, -, rfl⟩ := busRead_ok_cases h <;> rfl

theorem readWord_ok_state {s u : State} {addr : Word} {acc : Access} {pc0 : Option Word} {w : Word}
    (h : readWord s addr acc pc0 = .ok (w, u)) : u = { s with draws := u.draws } := by
  obtain ⟨l, t, hi, hlo, hhi, -⟩ := readWord_ok_cases h
  rw [busRead_ok_state hhi, busRead_ok_state hlo]

/-! ### What a completed instruction, step and reset are -/

/-- The memory of `t` is that of `s`, but for a byte stored in RAM at most (rules R52 and R55). -/
def MemChangesInRam (s t : State) : Prop :=
  t.mem = s.mem ∨ ∃ addr v, region addr = .ram ∧ t.mem = Memory.write s.mem addr.toNat v

/-- The flags after an instruction's own rule and before the flag generator: only SEI writes one, which is I (rule
R200, C2). -/
def ownFlags (i : Instr) (p : Flags) : Flags := { p with i := decide (i = .sei) || p.i }

/-- A completed instruction ends in `retire` with its own kind, mode and flag-result, from a state `u` with the
configuration, the fault record and all of memory but RAM as before, in which only SEI has touched a flag (rules R30,
R102 and R200). -/
theorem exec_next_cases {i : Instr} {s t : State} (h : exec i s = .next t) :
    ∃ k o taken u, i.kind? = some k ∧ t = retire k i.mode o (flagResult i t) taken u ∧
      u.cfg = s.cfg ∧ u.fault = s.fault ∧ MemChangesInRam s u ∧
      u.p = ownFlags i s.p := by
  cases i with
  | ldaAbsX base =>
    obtain ⟨⟨b, u⟩, hread, hnext⟩ := orFault_next h
    cases hnext
    have hu := busRead_ok_state hread
    refine ⟨_, _, _, _, rfl, rfl, ?_⟩
    rw [hu]
    exact ⟨rfl, rfl, .inl rfl, rfl⟩
  | staAbs ea =>
    obtain ⟨u, hwrite, hnext⟩ := orFault_next h
    cases hnext
    refine ⟨_, _, _, _, rfl, rfl, ?_⟩
    obtain ⟨hram, rfl⟩ | ⟨-, rfl⟩ := busWrite_ok_cases hwrite
    · exact ⟨rfl, rfl, .inr ⟨_, _, hram, rfl⟩, rfl⟩
    · exact ⟨rfl, rfl, .inl rfl, rfl⟩
  | bneRel off =>
    simp only [exec, execBneRel] at h
    split at h <;> cases h <;> exact ⟨_, _, _, _, rfl, rfl, rfl, rfl, .inl rfl, rfl⟩
  | unimplemented => cases h
  | jmpAbs | sei | dey | txs | ldyImm | ldxImm | ldaImm | inx | nop =>
    cases h
    exact ⟨_, _, _, _, rfl, rfl, rfl, rfl, .inl rfl, rfl⟩

/-- A completed step ran the instruction it fetched, with no fault recorded before it (rules R102 and R103). -/
theorem step_next_cases {s t : State} (h : step s = .next t) :
    s.fault = none ∧ ∃ i u, fetchInstr s = .ok (i, u) ∧ exec i { s with draws := u.draws } = .next t := by
  unfold step at h
  split at h
  · cases h
  · rename_i hnone
    obtain ⟨⟨i, u⟩, hfetch, hexec⟩ := orFault_next h
    exact ⟨hnone, i, u, hfetch, hexec⟩

/-- A completed reset read the vector and left the draws it took (rules R250 to R252). -/
theorem resetCore_next_cases {s t : State} (h : resetCore s = .next t) :
    ∃ w u, readWord s 0xFFFC#16 .read none = .ok (w, u) ∧
      t = { s with
        a := 0x00#8, x := 0x00#8, y := 0x00#8, sp := 0x00#8,
        p := Flags.initial, pc := w, fault := none, draws := u.draws, cycles := none } := by
  obtain ⟨⟨w, u⟩, hread, hnext⟩ := orFault_next h
  have hu := readWord_ok_state hread
  cases hnext
  exact ⟨w, u, hread, by rw [hu]⟩

/-! ### What is kept from 0x8000 on -/

theorem MemChangesInRam.peek_eq {s t : State} (h : MemChangesInRam s t) (hcfg : t.cfg = s.cfg) {addr : Word}
    (hrom : 0x8000 ≤ addr.toNat) : peek t addr = peek s addr := by
  obtain hmem | ⟨ea, v, hram, hmem⟩ := h
  · exact peek_congr hmem hcfg addr
  · have hne : addr ≠ ea := by
      rintro rfl
      have := region_eq_ram.mp hram
      omega
    calc peek t addr
      _ = peek { s with mem := Memory.write s.mem ea.toNat v } addr := peek_congr (s := { s with mem := Memory.write s.mem ea.toNat v }) hmem hcfg addr
      _ = peek s addr := peek_write_other v hne

theorem exec_keeps_cfg_and_rom {i : Instr} {s t : State} (h : exec i s = .next t) :
    t.cfg = s.cfg ∧ ∀ addr : Word, 0x8000 ≤ addr.toNat → peek t addr = peek s addr := by
  obtain ⟨k, o, taken, u, -, ht, hcfg, -, hmem, -⟩ := exec_next_cases h
  rw [ht]
  exact ⟨hcfg, fun _ hrom => MemChangesInRam.peek_eq hmem hcfg hrom⟩

theorem step_keeps_cfg_and_rom {s t : State} (h : step s = .next t) :
    t.cfg = s.cfg ∧ ∀ addr : Word, 0x8000 ≤ addr.toNat → peek t addr = peek s addr := by
  obtain ⟨-, _, u, -, hexec⟩ := step_next_cases h
  exact exec_keeps_cfg_and_rom (s := { s with draws := u.draws }) hexec

theorem resetCore_keeps_cfg_and_rom {s t : State} (h : resetCore s = .next t) :
    t.cfg = s.cfg ∧ ∀ addr : Word, 0x8000 ≤ addr.toNat → peek t addr = peek s addr := by
  obtain ⟨_, _, -, rfl⟩ := resetCore_next_cases h
  exact ⟨rfl, fun addr _ => peek_congr rfl rfl addr⟩

/-! ### Who writes the flags -/

/-- The kinds of rule R121 are those of the instructions that hand over a flag-result. -/
theorem producesFlagResult_eq {i : Instr} {k : Kind} (t : State) (h : i.kind? = some k) :
    producesFlagResult k = (flagResult i t).isSome := by
  cases i <;> cases h <;> rfl

theorem updateFlags_some {k : Kind} (r : Byte) (p : Flags) (h : producesFlagResult k = true) :
    updateFlags k (some r) p = setNZ r p := by
  simp only [updateFlags, h]

theorem updateFlags_none (k : Kind) (p : Flags) : updateFlags k none p = p := by
  unfold updateFlags
  cases producesFlagResult k <;> rfl

/-- The flags a completed instruction leaves: SEI's own write, and N and Z from the flag-result where there is one
(rules R120 to R122 and R200). -/
theorem exec_next_flags {i : Instr} {s t : State} (h : exec i s = .next t) :
    t.p = match flagResult i t with
      | some r => setNZ r (ownFlags i s.p)
      | none => ownFlags i s.p := by
  obtain ⟨k, o, taken, u, hk, ht, -, -, -, hp⟩ := exec_next_cases h
  have hupd : t.p = updateFlags k (flagResult i t) u.p := congrArg State.p ht
  have hkind := producesFlagResult_eq t hk
  rw [hupd, hp]
  cases hr : flagResult i t with
  | none => exact updateFlags_none k _
  | some r => exact updateFlags_some r _ (by rw [hkind, hr]; rfl)

/-- What an instruction does to each flag (rules R27 and R120 to R122). -/
theorem exec_writes_flags_as_listed {i : Instr} {s t : State} (h : exec i s = .next t) :
    (match flagResult i t with
      | some r => t.p.n = r.msb ∧ t.p.z = (r == 0#8)
      | none => t.p.n = s.p.n ∧ t.p.z = s.p.z) ∧
    t.p.v = s.p.v ∧ t.p.r = s.p.r ∧ t.p.b = s.p.b ∧ t.p.d = s.p.d ∧ t.p.c = s.p.c ∧
    (i = .sei → t.p.i = true) ∧ (i ≠ .sei → t.p.i = s.p.i) := by
  have hp := exec_next_flags h
  cases hr : flagResult i t with
  | none =>
    simp only [hr] at hp
    simp +contextual [hp, ownFlags]
  | some r =>
    simp only [hr] at hp
    simp +contextual [hp, ownFlags, setNZ]

/-! ### Who reads the flags -/

/-- With Z as it was, or for any instruction but BNE, the flags at the start feed only the flags at the end. -/
theorem exec_reads_flags_as_listed (i : Instr) (s : State) (q : Flags)
    (h : q.z = s.p.z ∨ ∀ off, i ≠ .bneRel off) :
    onNext (fun t => { t with p := q }) (exec i { s with p := q }) =
      onNext (fun t => { t with p := q }) (exec i s) := by
  cases i with
  | bneRel off =>
    have hz : q.z = s.p.z := h.resolve_right fun hne => hne off rfl
    simp only [exec, execBneRel, hz]
    split <;> rfl
  | ldaAbsX base =>
    have hread := busRead_of_busIgnores (busIgnores_setFlags q) (consume .absoluteX s) (addx16 base s.x) .read
      (some s.pc)
    simp only [consume] at hread
    simp only [exec, execLdaAbsX, consume, hread]
    exact onNext_orFault_map _ fun _ => rfl
  | staAbs ea =>
    have hwrite := busWrite_of_busIgnores (busIgnores_setFlags q) (consume .absolute s) ea s.a s.pc
    simp only [consume] at hwrite
    simp only [exec, execStaAbs, consume, hwrite]
    exact onNext_orFault_map _ fun _ => rfl
  | jmpAbs | sei | dey | txs | ldyImm | ldxImm | ldaImm | inx | nop | unimplemented => rfl

/-! ### The reserved flag -/

theorem exec_keeps_reserved {i : Instr} {s t : State} (h : exec i s = .next t) : t.p.r = s.p.r := by
  obtain ⟨-, -, hr, -⟩ := exec_writes_flags_as_listed h
  exact hr

theorem step_keeps_reserved {s t : State} (h : step s = .next t) : t.p.r = s.p.r := by
  obtain ⟨-, _, u, -, hexec⟩ := step_next_cases h
  exact exec_keeps_reserved (s := { s with draws := u.draws }) hexec

theorem resetCore_flags {s t : State} (h : resetCore s = .next t) : t.p = Flags.initial := by
  obtain ⟨_, _, -, rfl⟩ := resetCore_next_cases h
  rfl

theorem inspectRegisters_reserved {s : State} (h : s.p.r = true) : (inspectRegisters s).p.r = true := by
  unfold inspectRegisters
  cases s.fault with
  | none => exact h
  | some _ => rfl

/-! ### The statements about the state -/

/-- Settles O19: a completed step or reset writes no byte outside RAM. -/
theorem configurationAndRomAreFixed : Obligations.ConfigurationAndRomAreFixed :=
  ⟨fun _ _ => step_keeps_cfg_and_rom, fun _ _ => resetCore_keeps_cfg_and_rom⟩

/-- Settles O38: the flags a completed instruction leaves are its flag-result's and SEI's own write, and only BNE's
branch looks at one. -/
theorem flagsFollowTheTable : Obligations.FlagsFollowTheTable :=
  ⟨fun _ _ _ => exec_writes_flags_as_listed, exec_reads_flags_as_listed, fun _ _ => resetCore_flags⟩

/-- Settles O39: neither the flag generator nor SEI writes the reserved flag, and construction, reset and snapshots
give it as true. -/
theorem reservedFlagAlwaysTrue : Obligations.ReservedFlagAlwaysTrue :=
  ⟨fun _ _ _ => rfl, fun _ _ h => by rw [resetCore_flags h]; rfl,
    fun _ _ hr h => (step_keeps_reserved h).trans hr, fun _ => inspectRegisters_reserved⟩

end Sys2Proof.Machine
end

section
/-! SUPPORT. The regions as ranges of addresses, and what a bus access does in each region. -/

namespace Sys2Proof.Machine

/-! ### The regions as ranges (rule R54) -/

/-- What address decoding answers: the first range that holds the address. -/
theorem region_cases (addr : Word) :
    (region addr = .ram ∧ addr.toNat ≤ 0x07FF) ∨
    (region addr = .io ∧ 0x2000 ≤ addr.toNat ∧ addr.toNat ≤ 0x2007) ∨
    (region addr = .rom ∧ 0x8000 ≤ addr.toNat) ∨
    (region addr = .unmapped ∧
      ((0x0800 ≤ addr.toNat ∧ addr.toNat ≤ 0x1FFF) ∨ (0x2008 ≤ addr.toNat ∧ addr.toNat ≤ 0x7FFF))) := by
  unfold region
  split
  · exact .inl ⟨rfl, ‹_›⟩
  · split
    · exact .inr (.inl ⟨rfl, ‹_›⟩)
    · split
      · exact .inr (.inr (.inl ⟨rfl, ‹_›⟩))
      · exact .inr (.inr (.inr ⟨rfl, by omega⟩))

theorem region_eq_io {addr : Word} : region addr = .io ↔ 0x2000 ≤ addr.toNat ∧ addr.toNat ≤ 0x2007 := by
  obtain ⟨hr, _⟩ | ⟨hr, _⟩ | ⟨hr, _⟩ | ⟨hr, _⟩ := region_cases addr <;>
    simp only [hr, reduceCtorEq, true_iff, false_iff] <;> omega

theorem region_eq_rom {addr : Word} : region addr = .rom ↔ 0x8000 ≤ addr.toNat := by
  obtain ⟨hr, _⟩ | ⟨hr, _⟩ | ⟨hr, _⟩ | ⟨hr, _⟩ := region_cases addr <;>
    simp only [hr, reduceCtorEq, true_iff, false_iff] <;> omega

theorem region_eq_unmapped {addr : Word} : region addr = .unmapped ↔
    (0x0800 ≤ addr.toNat ∧ addr.toNat ≤ 0x1FFF) ∨ (0x2008 ≤ addr.toNat ∧ addr.toNat ≤ 0x7FFF) := by
  obtain ⟨hr, _⟩ | ⟨hr, _⟩ | ⟨hr, _⟩ | ⟨hr, _⟩ := region_cases addr <;>
    simp only [hr, reduceCtorEq, true_iff, false_iff] <;> omega

/-! ### Where there is storage (rules R55 and R56) -/

theorem romHas_iff {cfg : Config} {addr : Word} : romHas cfg addr = true ↔ addr.toNat < 0x8000 + cfg.romLen :=
  decide_eq_true_iff

theorem hasStorage_of_ram (cfg : Config) {addr : Word} (h : region addr = .ram) : hasStorage cfg addr = true := by
  simp [hasStorage, h]

theorem hasStorage_of_rom (cfg : Config) {addr : Word} (h : region addr = .rom) :
    hasStorage cfg addr = romHas cfg addr := by
  simp [hasStorage, h]

/-! ### A bus access by region (rule R52) -/

section
variable (s : State) {addr : Word} (v : Byte) (acc : Access) (pc0 : Option Word) (p : Word)

theorem busRead_of_io (h : region addr = .io) :
    busRead s addr acc pc0 = .ok (Config.ioDraw s.draws, { s with draws := s.draws + 1 }) := by
  simp [busRead, h]

theorem busRead_of_rom_past_image (h : region addr = .rom) (hout : romHas s.cfg addr = false) :
    busRead s addr acc pc0 = .error (.unmappedAddress addr acc pc0) := by
  simp [busRead, h, hout]

theorem busRead_of_unmapped (h : region addr = .unmapped) :
    busRead s addr acc pc0 = .error (.unmappedAddress addr acc pc0) := by
  simp [busRead, h]

theorem busWrite_of_ram (h : region addr = .ram) :
    busWrite s addr v p = .ok { s with mem := Memory.write s.mem addr.toNat v } := by
  simp [busWrite, h]

theorem busWrite_of_io (h : region addr = .io) : busWrite s addr v p = .ok s := by
  simp [busWrite, h]

theorem busWrite_of_rom (h : region addr = .rom) : busWrite s addr v p = .error (.romWrite addr p) := by
  simp [busWrite, h]

theorem busWrite_of_unmapped (h : region addr = .unmapped) :
    busWrite s addr v p = .error (.unmappedAddress addr .write (some p)) := by
  simp [busWrite, h]

end

/-! ### A data access that faults ends its instruction (rules R141 and R144) -/

theorem exec_staAbs_of_busWrite_error {s : State} {addr : Word} {f : Fault}
    (h : busWrite (consume .absolute s) addr s.a s.pc = .error f) : exec (.staAbs addr) s = .fault f := by
  simp only [exec, execStaAbs, h, orFault]

theorem exec_ldaAbsX_of_busRead_error {s : State} {base : Word} {f : Fault}
    (h : busRead (consume .absoluteX s) (addx16 base s.x) .read (some s.pc) = .error f) :
    exec (.ldaAbsX base) s = .fault f := by
  simp only [exec, execLdaAbsX, h, orFault]

/-! ### A word of two stored bytes (rules R53 and R61) -/

theorem readWord_of_peek {s : State} {addr : Word} {l h : Byte} (acc : Access) (pc0 : Option Word)
    (hl : peek s addr = some l) (hh : peek s (addr + 1#16) = some h) :
    readWord s addr acc pc0 = .ok (leWord l h, s) := by
  simp only [readWord, busRead_of_peek acc pc0 hl, busRead_of_peek acc pc0 hh]

/-! ### The statements about the bus -/

/-- Settles O15: each region is its range. -/
theorem addressDecoding : Obligations.AddressDecoding :=
  fun _ => ⟨region_eq_ram, region_eq_io, region_eq_rom, region_eq_unmapped⟩

/-- Settles O16: the range fixes the region, and the region what the access does. -/
theorem busFollowsTheMap : Obligations.BusFollowsTheMap := by
  intro s addr v acc pc0 p
  refine ⟨fun hram => ?_, fun hhole => ?_, fun hio => ?_, fun hrom => ?_⟩
  · have hr := region_eq_ram.mpr hram
    exact ⟨busRead_of_hasStorage acc pc0 (hasStorage_of_ram s.cfg hr), busWrite_of_ram s v p hr⟩
  · have hr := region_eq_unmapped.mpr hhole
    exact ⟨busRead_of_unmapped s acc pc0 hr, busWrite_of_unmapped s v p hr⟩
  · have hr := region_eq_io.mpr hio
    exact ⟨⟨_, busRead_of_io s acc pc0 hr⟩, busWrite_of_io s v p hr⟩
  · have hr := region_eq_rom.mpr hrom
    refine ⟨fun hin => ?_, fun hout => ?_, busWrite_of_rom s v p hr⟩
    · have hhas : romHas s.cfg addr = true := romHas_iff.mpr (by omega)
      exact busRead_of_hasStorage acc pc0 ((hasStorage_of_rom s.cfg hr).trans hhas)
    · have hpast : ¬ romHas s.cfg addr = true := by
        rw [romHas_iff]
        omega
      exact busRead_of_rom_past_image s acc pc0 hr (Bool.eq_false_of_not_eq_true hpast)

/-- Settles O20: the value of `leWord`, two bus reads of stored bytes, and the table's three rows with a word
operand. -/
theorem littleEndianWords : Obligations.LittleEndianWords :=
  ⟨leWord_toNat, fun _ _ acc pc0 _ _ => readWord_of_peek acc pc0, fun _ _ _ => ⟨rfl, rfl, rfl⟩⟩

/-- Settles O21: the access faults, and STA and LDA abs,X end with the fault of their data access. -/
theorem unmappedAccessFaults : Obligations.UnmappedAccessFaults := by
  intro s addr hr
  refine ⟨fun acc pc0 => busRead_of_unmapped s acc pc0 hr, fun v p => busWrite_of_unmapped s v p hr,
    exec_staAbs_of_busWrite_error (busWrite_of_unmapped _ _ _ hr), fun base hbase => ?_⟩
  have hea : addx16 base s.x = addr := hbase
  apply exec_ldaAbsX_of_busRead_error
  rw [hea]
  exact busRead_of_unmapped _ _ _ hr

end Sys2Proof.Machine
end

section
/-! SUPPORT. What the decoder makes of a byte string, by the form its opcode asks for, and the opcode table's rows. -/

namespace Sys2Proof

/-! ### Decoding by the opcode's form (rules R80, R81 and R84) -/

section
variable {pol : UndefPolicy} {op : Byte} (l h : Byte) (rest : List Byte)

theorem decode_of_whole {i : Instr} (hform : decodeOpcode pol op = .whole i) :
    decode pol (op :: rest) = .ok (i, rest) := by
  simp only [decode, hform]

theorem decode_of_byte {mk : Byte → Instr} (hform : decodeOpcode pol op = .byte mk) :
    decode pol (op :: l :: rest) = .ok (mk l, rest) := by
  simp only [decode, hform]

theorem decode_of_word {mk : Word → Instr} (hform : decodeOpcode pol op = .word mk) :
    decode pol (op :: l :: h :: rest) = .ok (mk (leWord l h), rest) := by
  simp only [decode, hform]

end

/-! ### Undefined bytes (rule R87) -/

theorem definedOpcode_eq_false_iff (op : Byte) :
    definedOpcode op = false ↔ op ∉ opcodeTable.map Prod.fst := by
  rw [definedOpcode, ← Bool.not_eq_true, List.contains_iff_mem]

theorem decode_undefined_nop {op : Byte} (rest : List Byte) (hundef : definedOpcode op = false) :
    decode .nop (op :: rest) = .ok (.nop op, rest) :=
  decode_of_whole rest (decodeOpcode_undefined hundef)

theorem decode_undefined_fault {op : Byte} (rest : List Byte) (hundef : definedOpcode op = false) :
    decode .fault (op :: rest) = .ok (.unimplemented op, rest) :=
  decode_of_whole rest (decodeOpcode_undefined hundef)

/-! ### The statements about the opcode table -/

/-- Settles O1: each sample's opcode has a row, so the row's form reads the operand bytes, under either policy. -/
theorem sampleWordsDecode : Obligations.SampleWordsDecode :=
  fun _ =>
    ⟨decode_of_word 0xFF#8 0x80#8 [] rfl, decode_of_whole _ rfl, decode_of_byte 0xFA#8 [] rfl, by decide,
      decode_of_word 0x00#8 0x01#8 [] rfl, decode_of_word 0x00#8 0x02#8 [] rfl, decode_of_whole [] rfl⟩

/-- Settles O2: the form of each row reads its operand bytes, and a byte outside the table's first column is
undefined, so the policy alone answers for it. -/
theorem opcodeTableDecodes : Obligations.OpcodeTableDecodes := by
  intro pol l h w rest
  refine ⟨?rows, rfl, fun op hop => ?otherBytes⟩
  case rows =>
    exact ⟨decode_of_word l h rest rfl, decode_of_whole rest rfl, decode_of_whole rest rfl,
      decode_of_word l h rest rfl, decode_of_whole rest rfl, decode_of_byte l rest rfl, decode_of_byte l rest rfl,
      decode_of_byte l rest rfl, decode_of_word l h rest rfl, decode_of_byte l rest rfl, decode_of_whole rest rfl⟩
  case otherBytes =>
    have hundef : definedOpcode op = false := (definedOpcode_eq_false_iff op).mpr hop
    exact ⟨fun hpol => ⟨rest, hpol ▸ decode_undefined_nop rest hundef⟩,
      fun hpol => ⟨rest, hpol ▸ decode_undefined_fault rest hundef⟩⟩

end Sys2Proof
end

section
/-! SUPPORT. What a fetch is after its bus read, and that no stage of a step looks at the count returned before. -/

namespace Sys2Proof.Machine

/-! ### A fetch by its bus read (rule R101) -/

theorem fetch8_of_busRead_ok {s t : State} {pc0 : Word} {b : Byte}
    (h : busRead s s.pc .fetch (some pc0) = .ok (b, t)) : fetch8 s pc0 = .ok (b, { t with pc := s.pc + 1#16 }) := by
  simp only [fetch8, h]

theorem fetch8_of_busRead_error {s : State} {pc0 : Word} {f : Fault}
    (h : busRead s s.pc .fetch (some pc0) = .error f) : fetch8 s pc0 = .error f := by
  simp only [fetch8, h]

/-- A completed read of a stub address gives the next draw (rule R57). -/
theorem busRead_ok_eq_ioDraw {s t : State} {addr : Word} {acc : Access} {pc0 : Option Word} {b : Byte}
    (h : busRead s addr acc pc0 = .ok (b, t)) (hio : region addr = .io) : b = Config.ioDraw s.draws := by
  rw [busRead_of_io s acc pc0 hio] at h
  cases h
  rfl

/-! ### The count returned before, stage by stage (rules R102 and R131) -/

theorem busIgnores_setCycles (c : Option Nat) : BusIgnores fun s => { s with cycles := c } :=
  ⟨fun _ => rfl, fun _ => rfl, fun _ => rfl, fun _ _ => rfl, fun _ _ => rfl⟩

/-- A fetch hands on the count it was given and does not look at it. -/
theorem fetch8_setCycles (s : State) (c : Option Nat) (pc0 : Word) :
    fetch8 { s with cycles := c } pc0 = (fetch8 s pc0).map (Prod.map id fun t => { t with cycles := c }) := by
  have hread := busRead_of_busIgnores (busIgnores_setCycles c) s s.pc .fetch (some pc0)
  simp only [fetch8, hread]
  cases busRead s s.pc .fetch (some pc0) <;> rfl

/-- The fetch of an instruction does not look at the count either, whatever bytes its opcode asks for. -/
theorem fetchInstr_setCycles (s : State) (c : Option Nat) :
    fetchInstr { s with cycles := c } = (fetchInstr s).map (Prod.map id fun t => { t with cycles := c }) := by
  simp only [fetchInstr, fetch8_setCycles]
  cases fetch8 s s.pc with
  | error _ => rfl
  | ok r =>
    obtain ⟨op, t⟩ := r
    simp only [Except.map, Prod.map, id]
    cases decodeOpcode s.cfg.undefPolicy op with
    | whole i => rfl
    | byte mk =>
      simp only [fetch8_setCycles]
      cases fetch8 t s.pc <;> rfl
    | word mk =>
      simp only [fetch8_setCycles]
      cases fetch8 t s.pc with
      | error _ => rfl
      | ok r =>
        obtain ⟨l, u⟩ := r
        simp only [Except.map, Prod.map, id, fetch8_setCycles]
        cases fetch8 u s.pc <;> rfl

theorem orFault_map {α β : Type} (g : α → β) (k : β → Result) (r : Except Fault α) :
    orFault (r.map g) k = orFault r fun x => k (g x) := by
  cases r <;> rfl

/-- An instruction writes its own count over the one it was given, or faults without a state. -/
theorem exec_setCycles (i : Instr) (s : State) (c : Option Nat) : exec i { s with cycles := c } = exec i s := by
  cases i with
  | ldaAbsX base =>
    have hread := busRead_of_busIgnores (busIgnores_setCycles c) (consume .absoluteX s) (addx16 base s.x) .read
      (some s.pc)
    simp only [consume] at hread
    simp only [exec, execLdaAbsX, consume, hread, orFault_map]
    rfl
  | staAbs ea =>
    have hwrite := busWrite_of_busIgnores (busIgnores_setCycles c) (consume .absolute s) ea s.a s.pc
    simp only [consume] at hwrite
    simp only [exec, execStaAbs, consume, hwrite, orFault_map]
    rfl
  | jmpAbs | sei | dey | txs | ldyImm | ldxImm | ldaImm | bneRel | inx | nop | unimplemented => rfl

theorem step_setCycles (s : State) (c : Option Nat) : step { s with cycles := c } = step s := by
  have hexec (i : Instr) (n : Nat) : exec i { s with draws := n, cycles := c } = exec i { s with draws := n } :=
    exec_setCycles i { s with draws := n } c
  simp only [step, fetchInstr_setCycles, orFault_map, Prod.map_fst, Prod.map_snd, id, hexec]

/-! ### The statements about the step -/

/-- Settles O14: the fetch hands the earlier count on unread, and every meaning overwrites it. -/
theorem cycleCountFeedsNothing : Obligations.CycleCountFeedsNothing := step_setCycles

/-- Settles O9: a fetch is its bus read with PC moved on, and a fetch's bus read faults only as an unmapped access at
PC. -/
theorem fetchReadsThenAdvances : Obligations.FetchReadsThenAdvances := by
  refine fun s pc0 => ⟨fun b t hread => ?completes, fun f hread => ?faults⟩
  case completes => exact ⟨fetch8_of_busRead_ok hread, busRead_ok_eq_ioDraw hread⟩
  case faults =>
    obtain ⟨hf, -, -⟩ := busRead_error_cases hread
    exact ⟨fetch8_of_busRead_error hread, hf⟩

end Sys2Proof.Machine
end

section
/-! SUPPORT. How a step's fetch feeds its operand bytes to the instruction, and what a load or a store ends in. -/

namespace Sys2Proof.Machine

/-! ### A fetch's address and its fault (rules R101 and R221) -/

theorem fetch8_ok_pc {s t : State} {pc0 : Word} {b : Byte} (h : fetch8 s pc0 = .ok (b, t)) :
    t.pc = s.pc + 1#16 :=
  congrArg State.pc (fetch8_ok h)

theorem fetch8_error_eq_fetchFault {s : State} {pc0 : Word} {f : Fault} (h : fetch8 s pc0 = .error f) :
    f = fetchFault s.pc pc0 :=
  (fetch8_error h).1

/-! ### A step by its instruction fetch (rules R102 and R105) -/

theorem step_of_fetchInstr_ok {s t : State} {i : Instr} (hrun : s.fault = none) (h : fetchInstr s = .ok (i, t)) :
    step s = exec i { s with draws := t.draws } := by
  simp only [step, hrun, h, orFault]

theorem step_of_fetchInstr_error {s : State} {f : Fault} (hrun : s.fault = none) (h : fetchInstr s = .error f) :
    step s = .fault f := by
  simp only [step, hrun, h, orFault]

/-! ### An instruction fetch by its opcode's form (rules R81 and R102) -/

section
variable {s t : State} {op : Byte} {f : Fault}

theorem fetchInstr_of_byte_ok {u : State} {mk : Byte → Instr} {b : Byte} (hop : fetch8 s s.pc = .ok (op, t))
    (hform : decodeOpcode s.cfg.undefPolicy op = .byte mk) (hb : fetch8 t s.pc = .ok (b, u)) :
    fetchInstr s = .ok (mk b, u) := by
  simp only [fetchInstr, hop, hform, hb]

theorem fetchInstr_of_byte_error {mk : Byte → Instr} (hop : fetch8 s s.pc = .ok (op, t))
    (hform : decodeOpcode s.cfg.undefPolicy op = .byte mk) (hb : fetch8 t s.pc = .error f) :
    fetchInstr s = .error f := by
  simp only [fetchInstr, hop, hform, hb]

theorem fetchInstr_of_word_ok {u w : State} {mk : Word → Instr} {l h : Byte} (hop : fetch8 s s.pc = .ok (op, t))
    (hform : decodeOpcode s.cfg.undefPolicy op = .word mk) (hlo : fetch8 t s.pc = .ok (l, u))
    (hhi : fetch8 u s.pc = .ok (h, w)) : fetchInstr s = .ok (mk (leWord l h), w) := by
  simp only [fetchInstr, hop, hform, hlo, hhi]

theorem fetchInstr_of_word_error_low {mk : Word → Instr} (hop : fetch8 s s.pc = .ok (op, t))
    (hform : decodeOpcode s.cfg.undefPolicy op = .word mk) (hlo : fetch8 t s.pc = .error f) :
    fetchInstr s = .error f := by
  simp only [fetchInstr, hop, hform, hlo]

theorem fetchInstr_of_word_error_high {u : State} {mk : Word → Instr} {l : Byte}
    (hop : fetch8 s s.pc = .ok (op, t)) (hform : decodeOpcode s.cfg.undefPolicy op = .word mk)
    (hlo : fetch8 t s.pc = .ok (l, u)) (hhi : fetch8 u s.pc = .error f) : fetchInstr s = .error f := by
  simp only [fetchInstr, hop, hform, hlo, hhi]

end

/-- An opcode whose row asks for one byte runs the instruction made of the next byte in the stream. -/
theorem runsTwoBytes_of_decodeOpcode {op : Byte} {mk : Byte → Instr}
    (hform : ∀ pol, decodeOpcode pol op = .byte mk) : RunsTwoBytes op mk := by
  intro s t hrun hop
  refine ⟨fun f hb => ⟨?_, step_of_fetchInstr_error hrun (fetchInstr_of_byte_error hop (hform _) hb)⟩,
    fun b u hb => step_of_fetchInstr_ok hrun (fetchInstr_of_byte_ok hop (hform _) hb)⟩
  rw [← fetch8_ok_pc hop]
  exact fetch8_error_eq_fetchFault hb

/-- An opcode whose row asks for a word runs the instruction made of the next two bytes in the stream. -/
theorem runsThreeBytes_of_decodeOpcode {op : Byte} {mk : Word → Instr}
    (hform : ∀ pol, decodeOpcode pol op = .word mk) : RunsThreeBytes op mk := by
  intro s t hrun hop
  have hpc1 : t.pc = s.pc + 1#16 := fetch8_ok_pc hop
  refine ⟨fun f hlo => ⟨?lowFault, ?lowStep⟩,
    fun l u hlo => ⟨fun f hhi => ⟨?highFault, ?highStep⟩, fun h w hhi => ?runs⟩⟩
  case lowFault =>
    rw [← hpc1]
    exact fetch8_error_eq_fetchFault hlo
  case lowStep => exact step_of_fetchInstr_error hrun (fetchInstr_of_word_error_low hop (hform _) hlo)
  case highFault =>
    have hpc2 : u.pc = s.pc + 2#16 := by rw [fetch8_ok_pc hlo, hpc1, BitVec.add_assoc]; rfl
    rw [← hpc2]
    exact fetch8_error_eq_fetchFault hhi
  case highStep => exact step_of_fetchInstr_error hrun (fetchInstr_of_word_error_high hop (hform _) hlo hhi)
  case runs => exact step_of_fetchInstr_ok hrun (fetchInstr_of_word_ok hop (hform _) hlo hhi)

/-! ### What a load or a store costs and leaves of the flags (rules R120 to R130) -/

section
variable {k : Kind} (o : Operand) (v : Byte) (s : State)

theorem cycleCost_immediate : cycleCost k .immediate o false = baseCost k := by
  simp [cycleCost, modeCost, isIndexedOrRelative]

theorem cycleCost_staAbs : cycleCost .sta .absolute o false = 4 := by
  simp [cycleCost, baseCost, modeCost, isIndexedOrRelative]

/-- LDA abs,X pays one cycle more when indexing leaves the base's page (rule R128). -/
theorem cycleCost_ldaAbsX (base : Word) (x : Byte) :
    cycleCost .lda .absoluteX (resolveAbsoluteX base x) false =
      if hiByte (addx16 base x) = hiByte base then 4 else 5 := by
  by_cases hpage : hiByte (addx16 base x) = hiByte base <;>
    simp [cycleCost, baseCost, modeCost, isLoadStore, isIndexedOrRelative, resolveAbsoluteX, Operand.crossed,
      pageCrossed, hpage]

theorem retire_immediate_load (h : producesFlagResult k = true) :
    retire k .immediate o (some v) false s = { s with p := setNZ v s.p, cycles := some (baseCost k) } := by
  rw [retire, updateFlags_some v s.p h, cycleCost_immediate]

theorem retire_ldaAbsX (base : Word) (x : Byte) :
    retire .lda .absoluteX (resolveAbsoluteX base x) (some v) false s =
      { s with p := setNZ v s.p, cycles := some (if hiByte (addx16 base x) = hiByte base then 4 else 5) } := by
  rw [retire, updateFlags_some v s.p rfl, cycleCost_ldaAbsX]

theorem retire_staAbs : retire .sta .absolute o none false s = { s with cycles := some 4 } := by
  rw [retire, updateFlags_none, cycleCost_staAbs]

end

/-! ### A data access that completes ends its instruction (rules R141 and R144) -/

theorem exec_ldaAbsX_of_busRead_ok {s t : State} {base : Word} {v : Byte}
    (h : busRead (consume .absoluteX s) (addx16 base s.x) .read (some s.pc) = .ok (v, t)) :
    exec (.ldaAbsX base) s = .next { t with
      a := v, p := setNZ v t.p,
      cycles := some (if hiByte (addx16 base s.x) = hiByte base then 4 else 5) } := by
  simp only [exec, execLdaAbsX, h, orFault, retire_ldaAbsX]

theorem exec_staAbs_of_busWrite_ok {s t : State} {ea : Word}
    (h : busWrite (consume .absolute s) ea s.a s.pc = .ok t) :
    exec (.staAbs ea) s = .next { t with cycles := some 4 } := by
  simp only [exec, execStaAbs, h, orFault, retire_staAbs]

/-! ### A read where nothing is stored (rules R56 and R59) -/

theorem peek_eq_none_iff {s : State} {addr : Word} : peek s addr = none ↔ hasStorage s.cfg addr = false := by
  simp [peek]

theorem busRead_of_peek_none {s : State} {addr : Word} (acc : Access) (pc0 : Option Word)
    (hnone : peek s addr = none) (hio : region addr ≠ .io) :
    busRead s addr acc pc0 = .error (.unmappedAddress addr acc pc0) := by
  have hstore : hasStorage s.cfg addr = false := peek_eq_none_iff.mp hnone
  cases hread : busRead s addr acc pc0 with
  | error f =>
    obtain ⟨rfl, -, -⟩ := busRead_error_cases hread
    rfl
  | ok r =>
    obtain ⟨hhas, -, -⟩ | ⟨hstub, -, -⟩ := busRead_ok_cases hread
    · simp [hstore] at hhas
    · exact absurd hstub hio

/-! ### The statements about loads and stores -/

/-- Settles O22: LDA # ends as an immediate load of A, and row A9 asks for one byte. -/
theorem ldaImmediateLoadsA : Obligations.LdaImmediateLoadsA :=
  ⟨fun v _ => congrArg Host.Outcome.next (retire_immediate_load _ v _ rfl),
    runsTwoBytes_of_decodeOpcode fun _ => rfl⟩

/-- Settles O24: LDX # ends as an immediate load of X, and row A2 asks for one byte. -/
theorem ldxImmediateLoadsX : Obligations.LdxImmediateLoadsX :=
  ⟨fun v _ => congrArg Host.Outcome.next (retire_immediate_load _ v _ rfl),
    runsTwoBytes_of_decodeOpcode fun _ => rfl⟩

/-- Settles O25: LDY # ends as an immediate load of Y, and row A0 asks for one byte. -/
theorem ldyImmediateLoadsY : Obligations.LdyImmediateLoadsY :=
  ⟨fun v _ => congrArg Host.Outcome.next (retire_immediate_load _ v _ rfl),
    runsTwoBytes_of_decodeOpcode fun _ => rfl⟩

/-- Settles O23: what the bus read at base + X gives is loaded, or is the fault, and row BD asks for a word. -/
theorem ldaAbsoluteXLoadsA : Obligations.LdaAbsoluteXLoadsA := by
  refine ⟨fun base s v hstored => ?stored, fun base s hio => ?stub, fun base s hnone hio => ?neither,
    runsThreeBytes_of_decodeOpcode fun _ => rfl⟩
  case stored => exact exec_ldaAbsX_of_busRead_ok (busRead_of_peek .read _ hstored)
  case stub => exact exec_ldaAbsX_of_busRead_ok (busRead_of_io _ .read _ hio)
  case neither => exact exec_ldaAbsX_of_busRead_error (busRead_of_peek_none .read _ hnone hio)

/-- Settles O26: the region of the address fixes the bus write, the write the outcome, and row 8D asks for a word. -/
theorem staAbsoluteStoresA : Obligations.StaAbsoluteStoresA := by
  refine ⟨fun ea s => ⟨fun hram => ?ram, fun hio => ?stub, fun hrom => ?rom, fun hhole => ?hole⟩,
    runsThreeBytes_of_decodeOpcode fun _ => rfl⟩
  case ram => exact exec_staAbs_of_busWrite_ok (busWrite_of_ram _ s.a s.pc hram)
  case stub => exact exec_staAbs_of_busWrite_ok (busWrite_of_io _ s.a s.pc hio)
  case rom => exact exec_staAbs_of_busWrite_error (busWrite_of_rom _ s.a s.pc hrom)
  case hole => exact exec_staAbs_of_busWrite_error (busWrite_of_unmapped _ s.a s.pc hhole)

end Sys2Proof.Machine
end

section
/-! SUPPORT. How an opcode without operand bytes runs, and what an instruction of implied mode ends in. -/

namespace Sys2Proof.Machine

/-! ### An opcode whose row asks for no operand byte (rules R81 and R102) -/

theorem fetchInstr_of_whole_ok {s t : State} {op : Byte} {i : Instr} (hop : fetch8 s s.pc = .ok (op, t))
    (hform : decodeOpcode s.cfg.undefPolicy op = .whole i) : fetchInstr s = .ok (i, t) := by
  simp only [fetchInstr, hop, hform]

/-- An opcode whose row is a whole instruction runs it after the opcode's own fetch. -/
theorem runsOneByte_of_decodeOpcode {op : Byte} {i : Instr} (hform : ∀ pol, decodeOpcode pol op = .whole i) :
    RunsOneByte op i :=
  fun _ _ hrun hop => step_of_fetchInstr_ok hrun (fetchInstr_of_whole_ok hop (hform _))

/-! ### What an implied-mode instruction costs and leaves of the flags (rules R120 to R130) -/

section
variable {k : Kind} (o : Operand) (v : Byte) (s : State)

theorem cycleCost_implied : cycleCost k .implied o false = baseCost k := by
  simp [cycleCost, modeCost, isIndexedOrRelative]

/-- A register instruction's new value `v` gives N and Z, and its base cost is the whole count. -/
theorem retire_implied_result (h : producesFlagResult k = true) :
    retire k .implied o (some v) false s = { s with p := setNZ v s.p, cycles := some (baseCost k) } := by
  rw [retire, updateFlags_some v s.p h, cycleCost_implied]

end

/-! ### The statements about register transfers and increments -/

/-- Settles O27: TXS ends with X as its flag-result, and row 9A asks for no operand byte. -/
theorem txsCopiesXToSp : Obligations.TxsCopiesXToSp :=
  ⟨fun s => congrArg Host.Outcome.next (retire_implied_result _ s.x _ rfl),
    runsOneByte_of_decodeOpcode fun _ => rfl⟩

/-- Settles O28: INX ends with the incremented X as its flag-result, and row E8 asks for no operand byte. -/
theorem inxIncrementsX : Obligations.InxIncrementsX :=
  ⟨fun s => congrArg Host.Outcome.next (retire_implied_result _ (inc8 s.x) _ rfl),
    runsOneByte_of_decodeOpcode fun _ => rfl⟩

/-- Settles O29: DEY ends with the decremented Y as its flag-result, and row 88 asks for no operand byte. -/
theorem deyDecrementsY : Obligations.DeyDecrementsY :=
  ⟨fun s => congrArg Host.Outcome.next (retire_implied_result _ (dec8 s.y) _ rfl),
    runsOneByte_of_decodeOpcode fun _ => rfl⟩

end Sys2Proof.Machine
end

section
/-! SUPPORT. What a jump or a branch costs, and where it leaves PC. -/

namespace Sys2Proof.Machine

/-! ### What control transfer costs (rules R125 to R130) -/

/-- An instruction that hands over no flag-result ends with its count alone. -/
theorem retire_no_result (k : Kind) (m : Mode) (o : Operand) (taken : Bool) (s : State) :
    retire k m o none taken s = { s with cycles := some (cycleCost k m o taken) } := by
  rw [retire, updateFlags_none]

theorem cycleCost_jmpAbs (o : Operand) : cycleCost .jmp .absolute o false = 3 := by
  simp [cycleCost, baseCost, modeCost, isLoadStore]

/-- A branch that is not taken pays for no page crossing, though its operand may carry one (rule R129). -/
theorem cycleCost_bneRel_not_taken (o : Operand) : cycleCost .bne .relative o false = 2 := by
  simp [cycleCost, baseCost, modeCost, isLoadStore]

/-- A taken branch pays one cycle, and one more when the target leaves the page of the byte after it (rule R129). -/
theorem cycleCost_bneRel_taken (base : Word) (off : Byte) :
    cycleCost .bne .relative (resolveRelative base off) true =
      if hiByte (addrel16 base off) = hiByte base then 3 else 4 := by
  by_cases hpage : hiByte (addrel16 base off) = hiByte base <;>
    simp [cycleCost, baseCost, modeCost, isLoadStore, resolveRelative, Operand.crossed, pageCrossed, hpage]

/-! ### Where control transfer goes (rules R180 and R181) -/

theorem exec_jmpAbs (target : Word) (s : State) :
    exec (.jmpAbs target) s = .next { s with pc := target, cycles := some 3 } := by
  simp only [exec, execJmpAbs, retire_no_result, cycleCost_jmpAbs, consume]

section
variable {s : State} (off : Byte)

theorem exec_bneRel_of_z_clear (hz : s.p.z = false) :
    exec (.bneRel off) s = .next { s with
      pc := addrel16 (s.pc + 2#16) off,
      cycles := some (if hiByte (addrel16 (s.pc + 2#16) off) = hiByte (s.pc + 2#16) then 3 else 4) } := by
  simp only [exec, execBneRel, if_pos hz, retire_no_result, cycleCost_bneRel_taken]
  rfl

theorem exec_bneRel_of_z_set (hz : s.p.z = true) :
    exec (.bneRel off) s = .next { s with pc := s.pc + 2#16, cycles := some 2 } := by
  simp only [exec, execBneRel, hz, Bool.true_eq_false, if_false, retire_no_result, cycleCost_bneRel_not_taken]
  rfl

end

/-! ### The statements about control flow -/

/-- Settles O30: JMP replaces PC by its target without a bus access, and row 4C asks for a word. -/
theorem jmpSetsPc : Obligations.JmpSetsPc :=
  ⟨exec_jmpAbs, runsThreeBytes_of_decodeOpcode fun _ => rfl⟩

/-- Settles O31: Z alone decides whether the branch is taken, and row D0 asks for one byte. -/
theorem bneBranchesWhenZClear : Obligations.BneBranchesWhenZClear :=
  ⟨fun off _ => ⟨exec_bneRel_of_z_clear off, exec_bneRel_of_z_set off⟩,
    runsTwoBytes_of_decodeOpcode fun _ => rfl⟩

end Sys2Proof.Machine
end

section
/-! SUPPORT. What SEI leaves, and where an undefined opcode sends a step. -/

namespace Sys2Proof.Machine

/-! ### The meanings of the system forms (rules R200 and R203) -/

/-- SEI sets I itself: with no flag-result handed over, the flag generator leaves N and Z (rules R120 and R122). -/
theorem exec_sei (s : State) :
    exec .sei s = .next { s with pc := s.pc + 1#16, p := { s.p with i := true }, cycles := some 2 } := by
  have hcost : cycleCost .sei .implied resolveImplied false = 2 := cycleCost_implied _
  simp only [exec, execSei, retire_no_result, hcost, consume]
  rfl

theorem exec_unimplemented (op : Byte) (s : State) :
    exec (.unimplemented op) s = .fault (.unimplementedOpcode op s.pc) := rfl

/-! ### The step that fetches an undefined byte (rules R87 and R203) -/

/-- The decoder asks for no operand byte, so the opcode's own fetch is the last one before the fault. -/
theorem step_of_undefined_fault {s t : State} {op : Byte} (hrun : s.fault = none)
    (hpol : s.cfg.undefPolicy = .fault) (hundef : definedOpcode op = false) (hop : fetch8 s s.pc = .ok (op, t)) :
    step s = .fault (.unimplementedOpcode op s.pc) := by
  have hform : decodeOpcode s.cfg.undefPolicy op = .whole (.unimplemented op) := by
    rw [hpol]
    exact decodeOpcode_undefined hundef
  rw [step_of_fetchInstr_ok hrun (fetchInstr_of_whole_ok hop hform), exec_unimplemented]

/-! ### The statements about system instructions and undefined opcodes -/

/-- Settles O32: SEI sets I by its own rule at base cost, and row 78 asks for no operand byte. -/
theorem seiSetsI : Obligations.SeiSetsI :=
  ⟨exec_sei, runsOneByte_of_decodeOpcode fun _ => rfl⟩

/-- Settles O34: the raising form faults at PC, and under the fault policy an undefined byte decodes to it whole. -/
theorem undefinedOpcodeFaults : Obligations.UndefinedOpcodeFaults :=
  ⟨exec_unimplemented, fun _ _ _ => step_of_undefined_fault⟩

end Sys2Proof.Machine
end

section
/-! SUPPORT. Which instructions an opcode byte can give, and where a step's fault comes from. -/

namespace Sys2Proof

/-! ### What the decoder can give (rules R82, R87 and R104) -/

/-- `i` is what an opcode of this form gives for some operand bytes. -/
def OpcodeForm.Makes : OpcodeForm → Instr → Prop
  | .whole j, i => i = j
  | .byte mk, i => ∃ b, i = mk b
  | .word mk, i => ∃ w, i = mk w

theorem mem_of_lookupOpcode {op : Byte} {form : OpcodeForm} {rows : List (Byte × OpcodeForm)}
    (h : lookupOpcode op rows = some form) : (op, form) ∈ rows := by
  induction rows with
  | nil => cases h
  | cons row rows ih =>
    rw [lookupOpcode] at h
    split at h
    · rename_i hop
      cases h
      exact hop ▸ List.mem_cons_self
    · exact List.mem_cons_of_mem _ (ih h)

/-- An opcode has a row, or it is undefined and the policy alone answers. -/
theorem decodeOpcode_cases (pol : UndefPolicy) (op : Byte) :
    (op, decodeOpcode pol op) ∈ opcodeTable ∨
    (definedOpcode op = false ∧ pol = .nop ∧ decodeOpcode pol op = .whole (.nop op)) ∨
    (definedOpcode op = false ∧ pol = .fault ∧ decodeOpcode pol op = .whole (.unimplemented op)) := by
  cases hrow : lookupOpcode op opcodeTable with
  | some form =>
    have hform : decodeOpcode pol op = form := by simp only [decodeOpcode, hrow]
    exact .inl (hform ▸ mem_of_lookupOpcode hrow)
  | none =>
    have hundef : definedOpcode op = false := (lookupOpcode_none_iff op opcodeTable).mp hrow
    cases pol with
    | nop => exact .inr (.inl ⟨hundef, rfl, decodeOpcode_undefined hundef⟩)
    | fault => exact .inr (.inr ⟨hundef, rfl, decodeOpcode_undefined hundef⟩)

/-- No row of the table gives the raising form. -/
theorem opcodeTable_not_makes_unimplemented {row : Byte × OpcodeForm} (h : row ∈ opcodeTable) (op : Byte) :
    ¬ row.2.Makes (.unimplemented op) := by
  simp only [opcodeTable, List.mem_cons, List.not_mem_nil, or_false] at h
  obtain rfl | rfl | rfl | rfl | rfl | rfl | rfl | rfl | rfl | rfl | rfl := h <;> simp [OpcodeForm.Makes]

/-- Only an undefined byte gives the raising form, its own, under the fault policy (rule R203). -/
theorem decodeOpcode_makes_unimplemented {pol : UndefPolicy} {byte op : Byte}
    (h : (decodeOpcode pol byte).Makes (.unimplemented op)) :
    pol = .fault ∧ definedOpcode op = false ∧ byte = op := by
  obtain hrow | ⟨-, -, hform⟩ | ⟨hundef, hpol, hform⟩ := decodeOpcode_cases pol byte
  · exact absurd h (opcodeTable_not_makes_unimplemented hrow op)
  · rw [hform] at h
    cases h
  · rw [hform] at h
    cases h
    exact ⟨hpol, hundef, rfl⟩

end Sys2Proof

namespace Sys2Proof.Machine

/-! ### What an instruction fetch ends in (rules R101 and R102) -/

theorem fetchInstr_of_opcode_error {s : State} {f : Fault} (hop : fetch8 s s.pc = .error f) :
    fetchInstr s = .error f := by
  simp only [fetchInstr, hop]

/-- An instruction fetch faults in one of its byte fetches, or gives an instruction that the form of the opcode byte
at PC makes. -/
theorem fetchInstr_cases (s : State) :
    (∃ addr, fetchInstr s = .error (fetchFault addr s.pc)) ∨
    (∃ op t i u, fetch8 s s.pc = .ok (op, t) ∧ (decodeOpcode s.cfg.undefPolicy op).Makes i ∧
      fetchInstr s = .ok (i, u)) := by
  cases hop : fetch8 s s.pc with
  | error f =>
    obtain rfl := fetch8_error_eq_fetchFault hop
    exact .inl ⟨_, fetchInstr_of_opcode_error hop⟩
  | ok r =>
    obtain ⟨op, t⟩ := r
    cases hform : decodeOpcode s.cfg.undefPolicy op with
    | whole i => exact .inr ⟨op, t, i, t, rfl, hform ▸ rfl, fetchInstr_of_whole_ok hop hform⟩
    | byte mk =>
      cases hb : fetch8 t s.pc with
      | error f =>
        obtain rfl := fetch8_error_eq_fetchFault hb
        exact .inl ⟨_, fetchInstr_of_byte_error hop hform hb⟩
      | ok r => exact .inr ⟨op, t, _, _, rfl, hform ▸ ⟨r.1, rfl⟩, fetchInstr_of_byte_ok hop hform hb⟩
    | word mk =>
      cases hlo : fetch8 t s.pc with
      | error f =>
        obtain rfl := fetch8_error_eq_fetchFault hlo
        exact .inl ⟨_, fetchInstr_of_word_error_low hop hform hlo⟩
      | ok r =>
        obtain ⟨l, v⟩ := r
        cases hhi : fetch8 v s.pc with
        | error f =>
          obtain rfl := fetch8_error_eq_fetchFault hhi
          exact .inl ⟨_, fetchInstr_of_word_error_high hop hform hlo hhi⟩
        | ok r =>
          exact .inr ⟨op, t, _, _, rfl, hform ▸ ⟨leWord l r.1, rfl⟩, fetchInstr_of_word_ok hop hform hlo hhi⟩

theorem fetchInstr_ok_makes {s u : State} {i : Instr} (h : fetchInstr s = .ok (i, u)) :
    ∃ op t, fetch8 s s.pc = .ok (op, t) ∧ (decodeOpcode s.cfg.undefPolicy op).Makes i := by
  obtain ⟨_, hfault⟩ | ⟨op, t, _, _, hop, hmakes, hok⟩ := fetchInstr_cases s
  · cases h.symm.trans hfault
  · cases h.symm.trans hok
    exact ⟨op, t, hop, hmakes⟩

theorem fetchInstr_error_eq_fetchFault {s : State} {f : Fault} (h : fetchInstr s = .error f) :
    ∃ addr, f = fetchFault addr s.pc := by
  obtain ⟨addr, hfault⟩ | ⟨_, _, _, _, -, -, hok⟩ := fetchInstr_cases s
  · cases h.symm.trans hfault
    exact ⟨addr, rfl⟩
  · cases h.symm.trans hok

/-! ### Where a fault comes from (rules R220 to R224) -/

/-- A fault after a bus access is the access's own or comes from what goes on. -/
theorem orFault_fault {α : Type} {r : Except Fault α} {k : α → Result} {f : Fault} (h : orFault r k = .fault f) :
    r = .error f ∨ ∃ v, r = .ok v ∧ k v = .fault f := by
  cases r with
  | error _ =>
    cases h
    exact .inl rfl
  | ok v => exact .inr ⟨v, rfl, h⟩

/-- An instruction faults in LDA abs,X's data read, in STA abs's data write, or as the raising form. -/
theorem exec_fault_cases {i : Instr} {s : State} {f : Fault} (h : exec i s = .fault f) :
    (∃ base, i = .ldaAbsX base ∧
      busRead (consume .absoluteX s) (addx16 base s.x) .read (some s.pc) = .error f) ∨
    (∃ ea, i = .staAbs ea ∧ busWrite (consume .absolute s) ea s.a s.pc = .error f) ∨
    (∃ op, i = .unimplemented op ∧ f = .unimplementedOpcode op s.pc) := by
  cases i with
  | ldaAbsX base =>
    obtain hread | ⟨_, -, hnext⟩ := orFault_fault h
    · exact .inl ⟨base, rfl, hread⟩
    · cases hnext
  | staAbs ea =>
    obtain hwrite | ⟨_, -, hnext⟩ := orFault_fault h
    · exact .inr (.inl ⟨ea, rfl, hwrite⟩)
    · cases hnext
  | unimplemented op =>
    cases h
    exact .inr (.inr ⟨op, rfl, rfl⟩)
  | bneRel off =>
    simp only [exec, execBneRel] at h
    split at h <;> cases h
  | jmpAbs | sei | dey | txs | ldyImm | ldxImm | ldaImm | inx | nop => cases h

/-- Neither data access raises UnimplementedOpcode, so the raising form did (rule R223). -/
theorem exec_fault_unimplementedOpcode {i : Instr} {s : State} {op : Byte} {pc0 : Word}
    (h : exec i s = .fault (.unimplementedOpcode op pc0)) : i = .unimplemented op ∧ pc0 = s.pc := by
  obtain ⟨_, -, hread⟩ | ⟨_, -, hwrite⟩ | ⟨_, hi, hf⟩ := exec_fault_cases h
  · obtain ⟨hf, -, -⟩ := busRead_error_cases hread
    cases hf
  · obtain ⟨-, hf⟩ | ⟨-, hf⟩ := busWrite_error_cases hwrite <;> cases hf
  · cases hf
    exact ⟨hi, rfl⟩

/-- A step faults in its instruction fetch or in the instruction it fetched (rules R102 and R105). -/
theorem step_fault_cases {s : State} {f : Fault} (h : step s = .fault f) :
    s.fault = none ∧ (fetchInstr s = .error f ∨
      ∃ i u, fetchInstr s = .ok (i, u) ∧ exec i { s with draws := u.draws } = .fault f) := by
  unfold step at h
  split at h
  · cases h
  · rename_i hnone
    obtain hfetch | ⟨⟨i, u⟩, hfetch, hexec⟩ := orFault_fault h
    · exact ⟨hnone, .inl hfetch⟩
    · exact ⟨hnone, .inr ⟨i, u, hfetch, hexec⟩⟩

/-- A step that raises UnimplementedOpcode fetched that byte at PC, undefined, under the fault policy (rule R223). -/
theorem step_fault_unimplementedOpcode {s : State} {op : Byte} {pc0 : Word}
    (h : step s = .fault (.unimplementedOpcode op pc0)) :
    s.cfg.undefPolicy = .fault ∧ definedOpcode op = false ∧ pc0 = s.pc ∧ ∃ t, fetch8 s s.pc = .ok (op, t) := by
  obtain ⟨-, hfetch | ⟨i, u, hfetch, hexec⟩⟩ := step_fault_cases h
  · obtain ⟨_, hf⟩ := fetchInstr_error_eq_fetchFault hfetch
    cases hf
  · obtain ⟨rfl, hpc⟩ := exec_fault_unimplementedOpcode hexec
    obtain ⟨_, t, hop, hmakes⟩ := fetchInstr_ok_makes hfetch
    obtain ⟨hpol, hundef, rfl⟩ := decodeOpcode_makes_unimplemented hmakes
    exact ⟨hpol, hundef, hpc, t, hop⟩

/-! ### What the host gets of a fault (rule R220) -/

theorem hostStep_of_step_fault {s : State} {f : Fault} (h : step s = .fault f) :
    hostStep s = some (recordFault s f, .error f) := by
  simp only [hostStep, h]

/-! ### The statements about faults -/

/-- Settles O45: only the raising form raises it, only an undefined byte under the fault policy decodes to that form,
and the host gets the fault of such a step. -/
theorem unimplementedOnlyUnderFaultPolicy : Obligations.UnimplementedOnlyUnderFaultPolicy := by
  refine ⟨fun s op pc0 => step_fault_unimplementedOpcode, fun s op pc0 hnop hstep => ?neverUnderNop,
    fun s t op hrun hpol hundef hop => ?reported⟩
  case neverUnderNop =>
    obtain ⟨hpol, -⟩ := step_fault_unimplementedOpcode hstep
    simp [hnop] at hpol
  case reported => exact hostStep_of_step_fault (step_of_undefined_fault hrun hpol hundef hop)

/-- Settles O10: the host's view of a faulting step, and the constructors of `Fault`. -/
theorem faultsAreReturnedAndRecorded : Obligations.FaultsAreReturnedAndRecorded := by
  refine ⟨fun s f hstep => ⟨hostStep_of_step_fault hstep, recordFault_fault s f, fun t => ?noNextState⟩,
    fun f => ?kinds⟩
  case noNextState => simp [hstep]
  case kinds =>
    cases f with
    | unmappedAddress addr acc pc0 => exact .inl ⟨addr, acc, pc0, rfl⟩
    | romWrite addr pc0 => exact .inr (.inl ⟨addr, pc0, rfl⟩)
    | unimplementedOpcode op pc0 => exact .inr (.inr ⟨op, pc0, rfl⟩)

end Sys2Proof.Machine
end

section
/-! SUPPORT. Reset by its vector read: the two bytes it reads are stored ones, and it changes no stored byte. -/

namespace Sys2Proof.Machine

/-! ### A read that cannot be a draw (rules R52 and R57) -/

/-- Off the I/O stub, a completed bus read gives the stored byte and changes nothing. -/
theorem busRead_ok_eq_peek {s t : State} {addr : Word} {acc : Access} {pc0 : Option Word} {b : Byte}
    (h : busRead s addr acc pc0 = .ok (b, t)) (hio : region addr ≠ .io) : peek s addr = some b ∧ t = s := by
  obtain ⟨hstored, rfl, rfl⟩ | ⟨hdraw, -⟩ := busRead_ok_cases h
  · exact ⟨by simp [peek, hstored], rfl⟩
  · exact absurd hdraw hio

/-! ### Reset by its vector read (rules R250 and R251) -/

/-- What reset leaves of `s` once the vector has given `w` (rule R250). -/
def resetTo (w : Word) (s : State) : State :=
  { s with
    a := 0x00#8, x := 0x00#8, y := 0x00#8, sp := 0x00#8,
    p := Flags.initial, pc := w, fault := none, cycles := none }

@[simp] theorem peek_resetTo (w : Word) (s : State) (addr : Word) : peek (resetTo w s) addr = peek s addr :=
  peek_congr rfl rfl addr

@[simp] theorem resetTo_resetTo (v w : Word) (s : State) : resetTo v (resetTo w s) = resetTo v s := rfl

section
variable {s : State}

theorem resetCore_of_readWord_ok {u : State} {w : Word} (h : readWord s 0xFFFC#16 .read none = .ok (w, u)) :
    resetCore s = .next (resetTo w u) := by
  simp only [resetCore, h, orFault, resetTo]

theorem resetCore_of_readWord_error {f : Fault} (h : readWord s 0xFFFC#16 .read none = .error f) :
    resetCore s = .fault f := by
  simp only [resetCore, h, orFault]

/-- Reset completes exactly where both vector bytes are stored, with PC from them: the vector lies in the ROM window,
so no draw is taken. -/
theorem resetCore_eq_next_iff {t : State} : resetCore s = .next t ↔
    ∃ l h, peek s 0xFFFC#16 = some l ∧ peek s 0xFFFD#16 = some h ∧ t = resetTo (leWord l h) s := by
  constructor
  · intro hreset
    obtain ⟨⟨w, u⟩, hread, hnext⟩ := orFault_next hreset
    obtain ⟨l, v, h, hlo, hhi, rfl⟩ := readWord_ok_cases hread
    obtain ⟨hl, rfl⟩ := busRead_ok_eq_peek hlo (by decide)
    obtain ⟨hh, rfl⟩ := busRead_ok_eq_peek hhi (by decide)
    cases hnext
    exact ⟨l, h, hl, hh, rfl⟩
  · rintro ⟨l, h, hl, hh, rfl⟩
    exact resetCore_of_readWord_ok (readWord_of_peek .read none hl hh)

end

/-! ### The statements about reset -/

/-- Settles O48: the vector bytes are stored ones that reset leaves, so a second reset loads the same word. -/
theorem resetIsIdempotent : Obligations.ResetIsIdempotent := by
  intro s t hreset
  obtain ⟨l, h, hl, hh, rfl⟩ := resetCore_eq_next_iff.mp hreset
  have hagain : resetCore (resetTo (leWord l h) s) = .next (resetTo (leWord l h) s) :=
    resetCore_eq_next_iff.mpr ⟨l, h, by simpa using hl, by simpa using hh, (resetTo_resetTo ..).symm⟩
  exact ⟨_, hagain, rfl, rfl⟩

/-- Settles O46: reset goes on to `resetTo` with the word its vector read gives, or ends with that read's fault. -/
theorem resetLoadsTheVector : Obligations.ResetLoadsTheVector :=
  fun _ => ⟨fun _ _ hread => ⟨_, resetCore_of_readWord_ok hread, rfl, rfl, rfl, rfl, rfl, rfl⟩,
    fun _ => resetCore_of_readWord_error⟩

end Sys2Proof.Machine
end

section
/-! SUPPORT. Decoding and encoding undo each other, and an opcode fixes its instruction's length. -/

namespace Sys2Proof

/-! ### What a form reads (rules R81 and R84) -/

/-- `i` is what an opcode of this form gives when exactly the bytes `operands` follow it. -/
def OpcodeForm.Reads : OpcodeForm → Instr → List Byte → Prop
  | .whole j, i, operands => i = j ∧ operands = []
  | .byte mk, i, operands => ∃ b, i = mk b ∧ operands = [b]
  | .word mk, i, operands => ∃ l h, i = mk (leWord l h) ∧ operands = [l, h]

/-- How many operand bytes a form asks for. -/
def OpcodeForm.operandBytes : OpcodeForm → Nat
  | .whole _ => 0
  | .byte _ => 1
  | .word _ => 2

section
variable {form : OpcodeForm} {i : Instr} {operands : List Byte}

theorem OpcodeForm.Reads.makes (h : form.Reads i operands) : form.Makes i := by
  cases form with
  | whole j => exact h.1
  | byte mk =>
    obtain ⟨b, hi, -⟩ := h
    exact ⟨b, hi⟩
  | word mk =>
    obtain ⟨l, h, hi, -⟩ := h
    exact ⟨leWord l h, hi⟩

theorem OpcodeForm.Reads.length_eq (h : form.Reads i operands) : operands.length = form.operandBytes := by
  cases form with
  | whole j => exact congrArg List.length h.2
  | byte mk =>
    obtain ⟨_, -, rfl⟩ := h
    rfl
  | word mk =>
    obtain ⟨_, _, -, rfl⟩ := h
    rfl

end

/-- A decoded byte string is an opcode, the operand bytes its form reads, and the bytes left over. -/
theorem decode_ok_cases {pol : UndefPolicy} {bs rest : List Byte} {i : Instr} (h : decode pol bs = .ok (i, rest)) :
    ∃ op operands, bs = op :: (operands ++ rest) ∧ (decodeOpcode pol op).Reads i operands := by
  cases bs with
  | nil => cases h
  | cons op xs =>
    cases hform : decodeOpcode pol op with
    | whole j =>
      cases (decode_of_whole xs hform).symm.trans h
      exact ⟨op, [], rfl, hform ▸ ⟨rfl, rfl⟩⟩
    | byte mk =>
      match xs with
      | [] => simp [decode, hform] at h
      | b :: xs =>
        cases (decode_of_byte b xs hform).symm.trans h
        exact ⟨op, [b], rfl, hform ▸ ⟨b, rfl, rfl⟩⟩
    | word mk =>
      match xs with
      | [] => simp [decode, hform] at h
      | [_] => simp [decode, hform] at h
      | l :: hi :: xs =>
        cases (decode_of_word l hi xs hform).symm.trans h
        exact ⟨op, [l, hi], rfl, hform ▸ ⟨l, hi, rfl, rfl⟩⟩

/-! ### The opcode table against the encoder (rules R82, R86 and R89) -/

/-- Whatever this row reads is well formed under either policy, and its encoding is the row's opcode and the operand
bytes read. -/
def RowEncodes (row : Byte × OpcodeForm) : Prop :=
  ∀ (pol : UndefPolicy) (i : Instr) (operands : List Byte), row.2.Reads i operands →
    WellFormed pol i = true ∧ encode i = row.1 :: operands

section
variable {op : Byte}

theorem rowEncodes_whole {j : Instr} (h : ∀ pol, WellFormed pol j = true ∧ encode j = [op]) :
    RowEncodes (op, .whole j) := by
  rintro pol _ _ ⟨rfl, rfl⟩
  exact h pol

theorem rowEncodes_byte {mk : Byte → Instr}
    (h : ∀ pol b, WellFormed pol (mk b) = true ∧ encode (mk b) = [op, b]) : RowEncodes (op, .byte mk) := by
  rintro pol _ _ ⟨b, rfl, rfl⟩
  exact h pol b

theorem rowEncodes_word {mk : Word → Instr}
    (h : ∀ pol w, WellFormed pol (mk w) = true ∧ encode (mk w) = [op, loByte w, hiByte w]) :
    RowEncodes (op, .word mk) := by
  rintro pol _ _ ⟨l, hi, rfl, rfl⟩
  simpa using h pol (leWord l hi)

end

/-- Every row of the table agrees with the encoder, in the table's order. -/
theorem opcodeTable_rowEncodes : ∀ row ∈ opcodeTable, RowEncodes row := by
  simp only [opcodeTable, List.forall_mem_cons]
  exact ⟨rowEncodes_word fun _ _ => ⟨rfl, rfl⟩, rowEncodes_whole fun _ => ⟨rfl, rfl⟩,
    rowEncodes_whole fun _ => ⟨rfl, rfl⟩, rowEncodes_word fun _ _ => ⟨rfl, rfl⟩,
    rowEncodes_whole fun _ => ⟨rfl, rfl⟩, rowEncodes_byte fun _ _ => ⟨rfl, rfl⟩,
    rowEncodes_byte fun _ _ => ⟨rfl, rfl⟩, rowEncodes_byte fun _ _ => ⟨rfl, rfl⟩,
    rowEncodes_word fun _ _ => ⟨rfl, rfl⟩, rowEncodes_byte fun _ _ => ⟨rfl, rfl⟩,
    rowEncodes_whole fun _ => ⟨rfl, rfl⟩, List.forall_mem_nil _⟩

/-- What an opcode and its operand bytes give is well formed, and they are its encoding: by the table's row, or as the
policy's answer to an undefined byte (rules R203 and R204). -/
theorem decodeOpcode_reads_encode {pol : UndefPolicy} {op : Byte} {i : Instr} {operands : List Byte}
    (h : (decodeOpcode pol op).Reads i operands) : WellFormed pol i = true ∧ encode i = op :: operands := by
  obtain hrow | ⟨hundef, rfl, hform⟩ | ⟨hundef, rfl, hform⟩ := decodeOpcode_cases pol op
  · exact opcodeTable_rowEncodes _ hrow pol i operands h
  all_goals
    rw [hform] at h
    obtain ⟨rfl, rfl⟩ := h
    simp [WellFormed, encode, hundef]

/-! ### Lengths (rule R83) -/

theorem encode_length (i : Instr) : (encode i).length = i.streamBytes := by
  cases i <;> rfl

theorem length?_eq_some {i : Instr} {n : Nat} (h : i.length? = some n) : n = i.streamBytes := by
  unfold Instr.length? at h
  split at h <;> cases h
  rfl

/-- Only the raising form has no length, since it alone has no kind. -/
theorem length?_eq_none_iff {i : Instr} : i.length? = none ↔ ∃ op, i = .unimplemented op := by
  cases i <;> simp [Instr.length?, Instr.kind?]

section
variable {pol : UndefPolicy} {op : Byte} {i : Instr} {xs rest : List Byte}

/-- Decoding takes the opcode byte and the operand bytes that its form asks for. -/
theorem decode_cons_ok_streamBytes (h : decode pol (op :: xs) = .ok (i, rest)) :
    i.streamBytes = 1 + (decodeOpcode pol op).operandBytes ∧ (op :: xs).length = i.streamBytes + rest.length := by
  obtain ⟨_, operands, hbs, hreads⟩ := decode_ok_cases h
  cases hbs
  obtain ⟨-, hencode⟩ := decodeOpcode_reads_encode hreads
  have hlen : i.streamBytes = 1 + operands.length := by
    rw [← encode_length, hencode, List.length_cons, Nat.add_comm]
  refine ⟨by rw [hlen, hreads.length_eq], ?_⟩
  rw [hlen, List.length_cons, List.length_append]
  omega

/-- An instruction is decoded without a length exactly from an undefined byte under the fault policy. -/
theorem decode_cons_ok_length?_eq_none_iff (h : decode pol (op :: xs) = .ok (i, rest)) :
    i.length? = none ↔ pol = .fault ∧ definedOpcode op = false := by
  rw [length?_eq_none_iff]
  constructor
  · rintro ⟨_, rfl⟩
    obtain ⟨_, _, hbs, hreads⟩ := decode_ok_cases h
    cases hbs
    obtain ⟨hpol, hundef, rfl⟩ := decodeOpcode_makes_unimplemented hreads.makes
    exact ⟨hpol, hundef⟩
  · rintro ⟨rfl, hundef⟩
    cases (decode_undefined_fault xs hundef).symm.trans h
    exact ⟨op, rfl⟩

end

/-- Two instructions that read as many bytes, and of which either both or neither have a length, have the same. -/
theorem length?_congr {i j : Instr} (hbytes : i.streamBytes = j.streamBytes)
    (hnone : i.length? = none ↔ j.length? = none) : i.length? = j.length? := by
  cases hi : i.length? with
  | none => exact (hnone.mp hi).symm
  | some n =>
    cases hj : j.length? with
    | none => simp [hnone.mpr hj] at hi
    | some m => rw [length?_eq_some hi, length?_eq_some hj, hbytes]

/-! ### The statements about encoding -/

/-- Settles O3: form by form, the table's row of the opcode reads the operand bytes back. -/
theorem decodeOfEncode : Obligations.DecodeOfEncode := by
  intro pol i rest hwf
  cases i with
  | jmpAbs target => exact Laws.RoundTrip.jmpAbs target pol rest hwf
  | sei => exact Laws.RoundTrip.sei pol rest hwf
  | dey => exact Laws.RoundTrip.dey pol rest hwf
  | staAbs addr => exact Laws.RoundTrip.staAbs addr pol rest hwf
  | txs => exact Laws.RoundTrip.txs pol rest hwf
  | ldyImm v => exact Laws.RoundTrip.ldyImm v pol rest hwf
  | ldxImm v => exact Laws.RoundTrip.ldxImm v pol rest hwf
  | ldaImm v => exact Laws.RoundTrip.ldaImm v pol rest hwf
  | ldaAbsX base => exact Laws.RoundTrip.ldaAbsX base pol rest hwf
  | bneRel off => exact Laws.RoundTrip.bneRel off pol rest hwf
  | inx => exact Laws.RoundTrip.inx pol rest hwf
  | nop op => exact Laws.RoundTrip.nop op pol rest hwf
  | unimplemented op => exact Laws.RoundTrip.unimplemented op pol rest hwf

/-- Settles O4: the bytes decoding takes are an opcode and the operand bytes its form reads. -/
theorem encodeOfDecode : Obligations.EncodeOfDecode := by
  intro pol bs rest i h
  obtain ⟨op, operands, rfl, hreads⟩ := decode_ok_cases h
  obtain ⟨hwf, hencode⟩ := decodeOpcode_reads_encode hreads
  exact ⟨hwf, by rw [hencode, List.cons_append]⟩

/-- Settles O5: the opcode's form fixes how many bytes are read, and whether there is a length at all. -/
theorem lengthFixedByOpcode : Obligations.LengthFixedByOpcode := by
  refine ⟨fun pol op xs ys r1 r2 i j hi hj => ?sameOpcode, fun op rest hundef =>
    ⟨⟨decode_undefined_nop rest hundef, rfl⟩, decode_undefined_fault rest hundef, rfl⟩⟩
  case sameOpcode =>
    obtain ⟨hbytes, htaken⟩ := decode_cons_ok_streamBytes hi
    obtain ⟨hbytes', -⟩ := decode_cons_ok_streamBytes hj
    have hsame : i.streamBytes = j.streamBytes := hbytes.trans hbytes'.symm
    have hnone := decode_cons_ok_length?_eq_none_iff hi
    have hnone' := decode_cons_ok_length?_eq_none_iff hj
    refine ⟨length?_congr hsame (hnone.trans hnone'.symm), hsame, htaken, fun n hn => ?_, hnone⟩
    obtain rfl := length?_eq_some hn
    exact ⟨rfl, htaken⟩

end Sys2Proof
end

section
/-! SUPPORT. A step by the bytes its fetch reads: what they decode to, and what is stored at PC. -/

namespace Sys2Proof.Machine

/-! ### A run of byte fetches (rule R101) -/

theorem pc_add_one_add (pc : Word) (n : Nat) : pc + 1#16 + BitVec.ofNat 16 n = pc + BitVec.ofNat 16 (n + 1) := by
  rw [Nat.add_comm, BitVec.ofNat_add, BitVec.add_assoc]

section
variable {s t : State} {pc0 : Word} {n : Nat}

theorem fetchBytes_nil_ok (h : fetchBytes pc0 n s = .ok ([], t)) : t = s := by
  cases n with
  | zero =>
    cases h
    rfl
  | succ n =>
    rw [fetchBytes] at h
    (repeat' split at h) <;> cases h

theorem fetchBytes_cons_ok {b : Byte} {bs : List Byte} (h : fetchBytes pc0 n s = .ok (b :: bs, t)) :
    ∃ m u, fetch8 s pc0 = .ok (b, u) ∧ fetchBytes pc0 m u = .ok (bs, t) := by
  cases n with
  | zero => cases h
  | succ n =>
    rw [fetchBytes] at h
    split at h
    · cases h
    · rename_i u hop
      split at h
      · cases h
      · rename_i hrest
        cases h
        exact ⟨n, u, hop, hrest⟩

theorem fetchBytes_ok_pc {bs : List Byte} (h : fetchBytes pc0 n s = .ok (bs, t)) :
    t.pc = s.pc + BitVec.ofNat 16 bs.length := by
  induction bs generalizing s n with
  | nil => simp [fetchBytes_nil_ok h]
  | cons b bs ih =>
    obtain ⟨m, u, hop, hrest⟩ := fetchBytes_cons_ok h
    rw [ih hrest, fetch8_ok_pc hop, pc_add_one_add, List.length_cons]

/-- Where bytes are stored from PC on, a run of fetches reads them and changes nothing but PC. -/
theorem fetchBytes_of_peek {bs : List Byte}
    (h : ∀ (k : Nat) (b : Byte), bs[k]? = some b → peek s (s.pc + BitVec.ofNat 16 k) = some b) :
    fetchBytes pc0 bs.length s = .ok (bs, { s with pc := s.pc + BitVec.ofNat 16 bs.length }) := by
  induction bs generalizing s with
  | nil => simp [fetchBytes]
  | cons b bs ih =>
    have hfirst : fetch8 s pc0 = .ok (b, { s with pc := s.pc + 1#16 }) :=
      fetch8_of_peek pc0 (by simpa using h 0 b rfl)
    have hrest := ih (s := { s with pc := s.pc + 1#16 }) fun k c hc =>
      (pc_add_one_add s.pc k).symm ▸ h (k + 1) c hc
    simp only [List.length_cons, fetchBytes, hfirst, hrest, pc_add_one_add]

/-! ### The instruction fetch as such a run (rules R80 and R102) -/

/-- A run of fetches at PC whose bytes decode with nothing left over is the fetch of the instruction they decode to. -/
theorem fetchInstr_of_fetchBytes {bs : List Byte} {i : Instr} (h : fetchBytes s.pc n s = .ok (bs, t))
    (hdecode : decode s.cfg.undefPolicy bs = .ok (i, [])) : fetchInstr s = .ok (i, t) := by
  obtain ⟨op, operands, rfl, hreads⟩ := decode_ok_cases hdecode
  rw [List.append_nil] at h
  obtain ⟨m, u, hop, hrest⟩ := fetchBytes_cons_ok h
  cases hform : decodeOpcode s.cfg.undefPolicy op with
  | whole j =>
    rw [hform] at hreads
    obtain ⟨rfl, rfl⟩ := hreads
    obtain rfl := fetchBytes_nil_ok hrest
    exact fetchInstr_of_whole_ok hop hform
  | byte mk =>
    rw [hform] at hreads
    obtain ⟨b, rfl, rfl⟩ := hreads
    obtain ⟨_, v, hb, hrest⟩ := fetchBytes_cons_ok hrest
    obtain rfl := fetchBytes_nil_ok hrest
    exact fetchInstr_of_byte_ok hop hform hb
  | word mk =>
    rw [hform] at hreads
    obtain ⟨l, hi, rfl, rfl⟩ := hreads
    obtain ⟨_, v, hlo, hrest⟩ := fetchBytes_cons_ok hrest
    obtain ⟨_, w, hhi, hrest⟩ := fetchBytes_cons_ok hrest
    obtain rfl := fetchBytes_nil_ok hrest
    exact fetchInstr_of_word_ok hop hform hlo hhi

/-- Where a well-formed instruction's encoding is stored at PC, it is what the step fetches, with no draw taken. -/
theorem fetchInstr_of_peek {i : Instr} (hwf : WellFormed s.cfg.undefPolicy i = true)
    (h : ∀ (k : Nat) (b : Byte), (encode i)[k]? = some b → peek s (s.pc + BitVec.ofNat 16 k) = some b) :
    fetchInstr s = .ok (i, { s with pc := s.pc + BitVec.ofNat 16 i.streamBytes }) := by
  have hdecode : decode s.cfg.undefPolicy (encode i) = .ok (i, []) := by
    simpa using decodeOfEncode s.cfg.undefPolicy i [] hwf
  rw [← encode_length]
  exact fetchInstr_of_fetchBytes (fetchBytes_of_peek h) hdecode

end

/-! ### The statements about a step and its bytes -/

/-- Settles O6: the bytes decode to what the instruction fetch gives, and are as many as PC moves by. -/
theorem stepRunsDecodedInstruction : Obligations.StepRunsDecodedInstruction := by
  intro s t i bs hrun hfetch hdecode
  obtain ⟨-, hbs⟩ := encodeOfDecode _ _ _ _ hdecode
  have hpc := fetchBytes_ok_pc hfetch
  rw [hbs, List.append_nil, encode_length] at hpc
  exact ⟨step_of_fetchInstr_ok hrun (fetchInstr_of_fetchBytes hfetch hdecode), hpc⟩

/-- Settles O7: the stored bytes are the instruction fetch's, which then takes no draw. -/
theorem stepRunsStoredInstruction : Obligations.StepRunsStoredInstruction := by
  intro s i hrun hwf hstored
  rw [step_of_fetchInstr_ok hrun (fetchInstr_of_peek hwf hstored)]

end Sys2Proof.Machine
end

section
/-! SUPPORT. What each instruction costs and what it leaves alone. -/

namespace Sys2Proof.Machine

/-! ### What LDA abs,X, STA and BNE leave (rules R141, R144 and R181) -/

section
variable {s t : State}

/-- A completed STA stored A in RAM, or nothing at the stub. -/
theorem exec_staAbs_next_cases {ea : Word} (h : exec (.staAbs ea) s = .next t) :
    (region ea = .ram ∧
      t = { s with mem := Memory.write s.mem ea.toNat s.a, pc := s.pc + 3#16, cycles := some 4 }) ∨
    (region ea = .io ∧ t = { s with pc := s.pc + 3#16, cycles := some 4 }) := by
  obtain ⟨u, hwrite, -⟩ := orFault_next h
  cases (exec_staAbs_of_busWrite_ok hwrite).symm.trans h
  obtain ⟨hram, rfl⟩ | ⟨hio, rfl⟩ := busWrite_ok_cases hwrite
  · exact .inl ⟨hram, rfl⟩
  · exact .inr ⟨hio, rfl⟩

/-- A completed LDA abs,X changed A, the flags and PC, and may have taken draws. -/
theorem exec_ldaAbsX_next {base : Word} (h : exec (.ldaAbsX base) s = .next t) :
    t = { s with
      a := t.a, pc := s.pc + 3#16, p := t.p, draws := t.draws,
      cycles := some (if hiByte (addx16 base s.x) = hiByte base then 4 else 5) } := by
  obtain ⟨⟨v, u⟩, hread, -⟩ := orFault_next h
  cases (exec_ldaAbsX_of_busRead_ok hread).symm.trans h
  rw [busRead_ok_state hread]
  rfl

/-- BNE changes PC alone, and Z alone decides how and at what cost. -/
theorem exec_bneRel (off : Byte) (s : State) :
    exec (.bneRel off) s = .next { s with
      pc := if s.p.z then s.pc + 2#16 else addrel16 (s.pc + 2#16) off,
      cycles := some (if s.p.z then 2 else
        if hiByte (addrel16 (s.pc + 2#16) off) = hiByte (s.pc + 2#16) then 3 else 4) } := by
  cases hz : s.p.z with
  | false => exact exec_bneRel_of_z_clear off hz
  | true => exact exec_bneRel_of_z_set off hz

end

/-! ### The cycle table (rules R125 to R130) -/

/-- Without a page surcharge in the mode or a branch, the cost is the kind's and the mode's. -/
theorem cycleCost_of_not_indexedOrRelative {k : Kind} {m : Mode} (o : Operand) (taken : Bool)
    (hmode : isIndexedOrRelative m = false) (hkind : k ≠ .bne) : cycleCost k m o taken = baseCost k + modeCost m := by
  simp [cycleCost, hmode, hkind]

theorem exec_next_cycles {i : Instr} {s t : State} {k : Kind} (h : exec i s = .next t) (hkind : i.kind? = some k)
    (hmode : isIndexedOrRelative i.mode = false) (hbne : k ≠ .bne) :
    t.cycles = some (baseCost k + modeCost i.mode) := by
  obtain ⟨k', o, taken, u, hk', ht, -⟩ := exec_next_cases h
  obtain rfl : k = k' := Option.some.inj (hkind.symm.trans hk')
  rw [ht, retire_cycles, cycleCost_of_not_indexedOrRelative o taken hmode hbne]

/-- Settles O13: LDA abs,X and BNE by their own equations, every other instruction by its kind's and its mode's cost. -/
theorem cycleTable : Obligations.CycleTable := by
  intro i s t h
  cases i with
  | ldaAbsX base => exact congrArg State.cycles (exec_ldaAbsX_next h)
  | bneRel off =>
    cases (exec_bneRel off s).symm.trans h
    rfl
  | unimplemented op => cases h
  | jmpAbs | sei | dey | staAbs | txs | ldyImm | ldxImm | ldaImm | inx | nop =>
    exact exec_next_cycles h rfl rfl (by decide)

theorem exec_next_cycles_bounds {i : Instr} {s t : State} (h : exec i s = .next t) :
    ∃ n, t.cycles = some n ∧ 2 ≤ n ∧ n ≤ 5 := by
  have hcost := cycleTable i s t h
  cases i with
  | ldaAbsX base => exact ⟨_, hcost, by split <;> decide⟩
  | bneRel off => exact ⟨_, hcost, by (repeat' split) <;> decide⟩
  | unimplemented op => exact hcost.elim
  | jmpAbs | sei | dey | staAbs | txs | ldyImm | ldxImm | ldaImm | inx | nop => exact ⟨_, hcost, by decide⟩

theorem exec_keeps_fault {i : Instr} {s t : State} (h : exec i s = .next t) : t.fault = s.fault := by
  obtain ⟨_, _, _, u, -, ht, -, hfault, -⟩ := exec_next_cases h
  rw [ht, retire_fault, hfault]

theorem step_next_fault {s t : State} (h : step s = .next t) : t.fault = none := by
  obtain ⟨hrun, i, u, -, hexec⟩ := step_next_cases h
  exact (exec_keeps_fault hexec).trans hrun

theorem hostStep_of_step_next {s t : State} {n : Nat} (h : step s = .next t) (hn : t.cycles = some n) :
    hostStep s = some (t, .ok n) := by
  simp only [hostStep, h, hn]

/-- Settles O12: the step's instruction keeps the fault record and has its count in the table. -/
theorem completedStepReturnsTwoToFive : Obligations.CompletedStepReturnsTwoToFive := by
  intro s t h
  obtain ⟨-, i, u, -, hexec⟩ := step_next_cases h
  obtain ⟨n, hn, hlow, hhigh⟩ := exec_next_cycles_bounds hexec
  exact ⟨step_next_fault h, n, hn, hostStep_of_step_next h hn, hlow, hhigh⟩

/-! ### Frames -/

/-- Settles O35: LDA abs,X by what it changes, STA by what it stores, BNE by Z, every other form by its own meaning. -/
theorem instructionFrame : Obligations.InstructionFrame := by
  intro i s t h
  cases i with
  | ldaAbsX base =>
    rw [exec_ldaAbsX_next h]
    exact ⟨fun _ hne => absurd rfl (hne base), fun _ _ => rfl, fun _ _ => rfl, fun _ => rfl,
      fun _ => ⟨rfl, peek_congr rfl rfl⟩, rfl, rfl, fun hne => absurd rfl (hne base), 3, rfl, fun _ _ => rfl⟩
  | staAbs ea =>
    obtain ⟨-, rfl⟩ | ⟨-, rfl⟩ := exec_staAbs_next_cases h <;>
    exact ⟨fun _ _ => rfl, fun _ _ => rfl, fun _ _ => rfl, fun _ => rfl, fun hne => absurd rfl (hne ea), rfl, rfl,
      fun _ => rfl, 3, rfl, fun _ _ => rfl⟩
  | bneRel off =>
    cases (exec_bneRel off s).symm.trans h
    exact ⟨fun _ _ => rfl, fun _ _ => rfl, fun _ _ => rfl, fun _ => rfl, fun _ => ⟨rfl, peek_congr rfl rfl⟩, rfl, rfl,
      fun _ => rfl, 2, rfl, fun _ hne => absurd rfl (hne off)⟩
  | unimplemented op => cases h
  | jmpAbs | sei | dey | txs | ldyImm | ldxImm | ldaImm | inx | nop =>
    cases h
    exact ⟨by simp, by simp, by simp, by simp, fun _ => ⟨rfl, peek_congr rfl rfl⟩, rfl, rfl, fun _ => rfl, _, rfl,
      by simp [Instr.mode]⟩

/-! ### A store and what is stored (rules R55 and R69) -/

theorem peek_write_same {s : State} {addr : Word} (v : Byte) (hwf : Memory.wf s.mem = true) (hr : region addr = .ram) :
    peek { s with mem := Memory.write s.mem addr.toNat v } addr = some v := by
  simp [peek, hasStorage_of_ram s.cfg hr, Memory.read_write_same addr.toNat v hwf]

/-- Settles O17: a write in RAM is a write of the memory list at that address. -/
theorem ramHoldsTheByteWritten : Obligations.RamHoldsTheByteWritten := by
  intro s addr v p hwf haddr
  have hr : region addr = .ram := region_eq_ram.mpr haddr
  exact ⟨_, busWrite_of_ram s v p hr, fun acc pc0 => busRead_of_peek acc pc0 (peek_write_same v hwf hr),
    fun _ hne => peek_write_other v hne⟩

/-- Settles O36: the store is one write of the memory list in RAM, and nothing at the stub. -/
theorem storeFrame : Obligations.StoreFrame := by
  intro ea s t h
  obtain ⟨hram, rfl⟩ | ⟨hio, rfl⟩ := exec_staAbs_next_cases h
  · exact ⟨rfl, rfl, rfl, rfl, rfl, rfl, rfl, rfl, fun _ hne => peek_write_other s.a hne,
      fun hio => by simp [hram] at hio, fun _ hwf => peek_write_same s.a hwf hram⟩
  · exact ⟨rfl, rfl, rfl, rfl, rfl, rfl, rfl, rfl, fun _ _ => peek_congr rfl rfl _,
      fun _ => peek_congr rfl rfl, fun hram => by simp [hio] at hram⟩

/-- Settles O52: the store left A's byte at the address, and a fetch gives what is stored. -/
theorem storeSeenByNextFetch : Obligations.StoreSeenByNextFetch := by
  intro ea pc0 s t hwf haddr h
  have hram : region ea = .ram := region_eq_ram.mpr haddr
  obtain ⟨-, rfl⟩ | ⟨hio, -⟩ := exec_staAbs_next_cases h
  · exact fetch8_of_peek pc0 (peek_write_same s.a hwf hram)
  · simp [hram] at hio

/-! ### NOP (rules R201 and R204) -/

theorem exec_nop (op : Byte) (s : State) : exec (.nop op) s = .next { s with pc := s.pc + 1#16, cycles := some 2 } := by
  have hcost : cycleCost .nop .implied resolveImplied false = 2 := cycleCost_implied _
  simp only [exec, execNop, retire_no_result, hcost, consume]
  rfl

/-- Settles O33: NOP hands over no result, and an undefined byte decodes to it whole under the no-op policy. -/
theorem nopOnlyAdvancesPc : Obligations.NopOnlyAdvancesPc := by
  refine ⟨exec_nop, fun op s t hrun hpol hundef hop => ?_⟩
  have hform : decodeOpcode s.cfg.undefPolicy op = .whole (.nop op) := by
    rw [hpol]
    exact decodeOpcode_undefined hundef
  rw [step_of_fetchInstr_ok hrun (fetchInstr_of_whole_ok hop hform), exec_nop]

end Sys2Proof.Machine
end

section
/-! SUPPORT. Which registers an instruction looks at. -/

namespace Sys2Proof.Machine

/-! ### A change of one register -/

/-- A change that the bus does not notice, that leaves PC, and that commutes with the two ends of an
instruction. -/
structure RegisterChange (f : State → State) : Prop extends BusIgnores f where
  pc : ∀ s, (f s).pc = s.pc
  consume : ∀ m s, f (consume m s) = consume m (f s)
  retire : ∀ k m o r taken s, f (retire k m o r taken s) = retire k m o r taken (f s)

section
variable (v : Byte)

theorem registerChange_setA : RegisterChange fun s => { s with a := v } :=
  ⟨⟨fun _ => rfl, fun _ => rfl, fun _ => rfl, fun _ _ => rfl, fun _ _ => rfl⟩, fun _ => rfl, fun _ _ => rfl,
    fun _ _ _ _ _ _ => rfl⟩

theorem registerChange_setX : RegisterChange fun s => { s with x := v } :=
  ⟨⟨fun _ => rfl, fun _ => rfl, fun _ => rfl, fun _ _ => rfl, fun _ _ => rfl⟩, fun _ => rfl, fun _ _ => rfl,
    fun _ _ _ _ _ _ => rfl⟩

theorem registerChange_setY : RegisterChange fun s => { s with y := v } :=
  ⟨⟨fun _ => rfl, fun _ => rfl, fun _ => rfl, fun _ _ => rfl, fun _ _ => rfl⟩, fun _ => rfl, fun _ _ => rfl,
    fun _ _ _ _ _ _ => rfl⟩

theorem registerChange_setSp : RegisterChange fun s => { s with sp := v } :=
  ⟨⟨fun _ => rfl, fun _ => rfl, fun _ => rfl, fun _ _ => rfl, fun _ _ => rfl⟩, fun _ => rfl, fun _ _ => rfl,
    fun _ _ _ _ _ _ => rfl⟩

end

@[simp] theorem onNext_next (f : State → State) (t : State) : onNext f (.next t) = .next (f t) := rfl

theorem onNext_orFault {α : Type} (f : State → State) (r : Except Fault α) (k : α → Result) :
    onNext f (orFault r k) = orFault r fun x => onNext f (k x) := by
  cases r <;> rfl

section
variable {f : State → State} (hf : RegisterChange f) (s : State)
include hf

/-- STA looks at A alone. -/
theorem exec_staAbs_of_registerChange (ea : Word) (ha : (f s).a = s.a) :
    exec (.staAbs ea) (f s) = onNext f (exec (.staAbs ea) s) := by
  have hwrite := busWrite_of_busIgnores hf.toBusIgnores (consume .absolute s) ea s.a s.pc
  rw [hf.consume] at hwrite
  simp only [exec, execStaAbs, ha, hf.pc, hwrite, orFault_map, onNext_orFault, onNext_next, hf.retire]

/-- LDA abs,X looks at X alone. -/
theorem exec_ldaAbsX_of_registerChange (base : Word) (hx : (f s).x = s.x)
    (hload : ∀ t b, f { t with a := b } = { f t with a := b }) :
    exec (.ldaAbsX base) (f s) = onNext f (exec (.ldaAbsX base) s) := by
  have hread := busRead_of_busIgnores hf.toBusIgnores (consume .absoluteX s) (addx16 base s.x) .read (some s.pc)
  rw [hf.consume] at hread
  simp only [exec, execLdaAbsX, hx, hf.pc, hread, orFault_map, onNext_orFault, onNext_next, hf.retire]
  congr 1
  funext r
  rw [hload r.2 r.1]
  rfl

end

/-! ### Register by register (rules R22 and R23) -/

section
variable {i : Instr} (s : State) (v : Byte)

theorem exec_setA (hsta : ∀ ea, i ≠ .staAbs ea) (himm : ∀ u, i ≠ .ldaImm u) (hx : ∀ b, i ≠ .ldaAbsX b) :
    exec i { s with a := v } = onNext (fun t => { t with a := v }) (exec i s) := by
  cases i with
  | bneRel off => simp only [exec_bneRel, onNext_next]
  | staAbs ea => exact absurd rfl (hsta ea)
  | ldaImm u => exact absurd rfl (himm u)
  | ldaAbsX base => exact absurd rfl (hx base)
  | jmpAbs | sei | dey | txs | ldyImm | ldxImm | inx | nop | unimplemented => rfl

/-- A load of A writes its own byte over the one it was given. -/
theorem exec_lda_setA (h : (∃ u, i = .ldaImm u) ∨ ∃ b, i = .ldaAbsX b) : exec i { s with a := v } = exec i s := by
  obtain ⟨u, rfl⟩ | ⟨base, rfl⟩ := h
  · rfl
  · have hread := busRead_of_busIgnores (registerChange_setA v).toBusIgnores (consume .absoluteX s) (addx16 base s.x)
      .read (some s.pc)
    simp only [consume] at hread
    simp only [exec, execLdaAbsX, consume, hread, orFault_map]
    rfl

theorem exec_setX (hlda : ∀ b, i ≠ .ldaAbsX b) (htxs : i ≠ .txs) (hinx : i ≠ .inx) (himm : ∀ u, i ≠ .ldxImm u) :
    exec i { s with x := v } = onNext (fun t => { t with x := v }) (exec i s) := by
  cases i with
  | bneRel off => simp only [exec_bneRel, onNext_next]
  | staAbs ea => exact exec_staAbs_of_registerChange (registerChange_setX v) s ea rfl
  | ldaAbsX base => exact absurd rfl (hlda base)
  | txs => exact absurd rfl htxs
  | inx => exact absurd rfl hinx
  | ldxImm u => exact absurd rfl (himm u)
  | jmpAbs | sei | dey | ldyImm | ldaImm | nop | unimplemented => rfl

theorem exec_setY (hdey : i ≠ .dey) (himm : ∀ u, i ≠ .ldyImm u) :
    exec i { s with y := v } = onNext (fun t => { t with y := v }) (exec i s) := by
  cases i with
  | bneRel off => simp only [exec_bneRel, onNext_next]
  | staAbs ea => exact exec_staAbs_of_registerChange (registerChange_setY v) s ea rfl
  | ldaAbsX base => exact exec_ldaAbsX_of_registerChange (registerChange_setY v) s base rfl fun _ _ => rfl
  | dey => exact absurd rfl hdey
  | ldyImm u => exact absurd rfl (himm u)
  | jmpAbs | sei | txs | ldxImm | ldaImm | inx | nop | unimplemented => rfl

theorem exec_setSp (htxs : i ≠ .txs) :
    exec i { s with sp := v } = onNext (fun t => { t with sp := v }) (exec i s) := by
  cases i with
  | bneRel off => simp only [exec_bneRel, onNext_next]
  | staAbs ea => exact exec_staAbs_of_registerChange (registerChange_setSp v) s ea rfl
  | ldaAbsX base => exact exec_ldaAbsX_of_registerChange (registerChange_setSp v) s base rfl fun _ _ => rfl
  | txs => exact absurd rfl htxs
  | jmpAbs | sei | dey | ldyImm | ldxImm | ldaImm | inx | nop | unimplemented => rfl

end

/-- Settles O37: the bus notices no register, so only STA's byte, LDA abs,X's index and the register forms' own operand
are looked at; a form that writes a register without reading it overwrites the change. -/
theorem registersReadOnlyAsListed : Obligations.RegistersReadOnlyAsListed := by
  intro i s v
  refine ⟨exec_setA s v, exec_lda_setA s v, exec_setX s v, ?ldx, exec_setY s v, ?ldy, exec_setSp s v, ?txs⟩
  case ldx =>
    rintro ⟨u, rfl⟩
    rfl
  case ldy =>
    rintro ⟨u, rfl⟩
    rfl
  case txs =>
    rintro rfl
    rfl

end Sys2Proof.Machine
end

section
/-! SUPPORT. Legal states: what a step, a run and the host's operations keep of them. -/

namespace Sys2Proof.Machine

/-! ### Which addresses are listed (rules R52 and R56) -/

theorem cellHasStorage_of_hasStorage {cfg : Config} {addr : Word} (v : Byte) (h : hasStorage cfg addr = true) :
    cellHasStorage cfg (addr.toNat, v) = true := by
  have hlt : addr.toNat < 0x10000 := addr.isLt
  simp [cellHasStorage, h, hlt]

/-- A write where there is storage lists no byte outside storage. -/
theorem Memory.write_stored {cfg : Config} {m : Memory} {addr : Word} (v : Byte) (haddr : hasStorage cfg addr = true)
    (h : m.all (cellHasStorage cfg) = true) : (Memory.write m addr.toNat v).all (cellHasStorage cfg) = true := by
  rw [List.all_eq_true] at h ⊢
  intro c hc
  obtain rfl | hold := Memory.mem_write hc
  · exact cellHasStorage_of_hasStorage v haddr
  · exact h c hold

/-- Loading a run of bytes lists no byte outside storage where every address of the run has storage. -/
theorem Memory.load_stored {cfg : Config} {m : Memory} {base : Nat} {bs : List Byte}
    (hrun : ∀ k, base ≤ k → k < base + bs.length → k < 0x10000 ∧ hasStorage cfg (BitVec.ofNat 16 k) = true)
    (h : m.all (cellHasStorage cfg) = true) : (Memory.load m base bs).all (cellHasStorage cfg) = true := by
  induction bs generalizing m base with
  | nil => exact h
  | cons b bs ih =>
    rw [List.length_cons] at hrun
    obtain ⟨hlt, hbase⟩ := hrun base le_rfl (by omega)
    have haddr : (BitVec.ofNat 16 base).toNat = base := Nat.mod_eq_of_lt hlt
    have hwrite := Memory.write_stored b hbase h
    rw [haddr] at hwrite
    exact ih (fun k hlow hhigh => hrun k (by omega) (by omega)) hwrite

/-! ### A step keeps a legal state legal -/

/-- A legal state stays legal where the configuration and the reserved flag stay, and memory changes in RAM at most. -/
theorem Legal.of_memChangesInRam {s t : State} (hs : Legal s) (hreserved : t.p.r = true) (hcfg : t.cfg = s.cfg)
    (hmem : MemChangesInRam s t) : Legal t := by
  refine ⟨hreserved, hcfg ▸ hs.romNonempty, hcfg ▸ hs.romFits, ?canonical, ?stored⟩
  case canonical =>
    obtain hmem | ⟨addr, v, -, hmem⟩ := hmem
    · exact hmem ▸ hs.canonical
    · exact hmem ▸ Memory.write_wf addr.toNat v hs.canonical
  case stored =>
    rw [hcfg]
    obtain hmem | ⟨addr, v, hram, hmem⟩ := hmem
    · exact hmem ▸ hs.stored
    · exact hmem ▸ Memory.write_stored v (hasStorage_of_ram s.cfg hram) hs.stored

theorem step_memChangesInRam {s t : State} (h : step s = .next t) : MemChangesInRam s t := by
  obtain ⟨-, i, u, -, hexec⟩ := step_next_cases h
  obtain ⟨_, _, _, v, -, ht, -, -, hmem, -⟩ := exec_next_cases hexec
  rw [ht]
  exact hmem

theorem step_keeps_legal {s t : State} (hs : Legal s) (h : step s = .next t) : Legal t := by
  obtain ⟨hcfg, -⟩ := step_keeps_cfg_and_rom h
  exact hs.of_memChangesInRam ((step_keeps_reserved h).trans hs.reserved) hcfg (step_memChangesInRam h)

/-! ### Runs -/

theorem runsTo_zero {s t : State} : RunsTo 0 s t ↔ t = s := by
  constructor <;> rintro ⟨⟩ <;> rfl

theorem runsTo_succ {n : Nat} {s t : State} : RunsTo (n + 1) s t ↔ ∃ u, step s = .next u ∧ RunsTo n u t := by
  unfold RunsTo
  rw [runFor]
  cases step s <;> simp

/-- What every completed step keeps, every run keeps. -/
theorem RunsTo.keeps {P : State → Prop} (hstep : ∀ u v, P u → step u = .next v → P v) {n : Nat} {s t : State}
    (hs : P s) (h : RunsTo n s t) : P t := by
  induction n generalizing s with
  | zero =>
    obtain rfl := runsTo_zero.mp h
    exact hs
  | succ n ih =>
    obtain ⟨u, hsu, hut⟩ := runsTo_succ.mp h
    exact ih (hstep s u hs hsu) hut

/-- `t` is legal, has passed no fault, and has the configuration and the bytes from 0x8000 on of `s`. -/
def GoodSince (s t : State) : Prop :=
  Legal t ∧ t.fault = none ∧ t.cfg = s.cfg ∧ ∀ addr : Word, 0x8000 ≤ addr.toNat → peek t addr = peek s addr

theorem step_keeps_goodSince {s u v : State} (hu : GoodSince s u) (h : step u = .next v) : GoodSince s v := by
  obtain ⟨hlegal, -, hcfg, hrom⟩ := hu
  obtain ⟨hcfg', hrom'⟩ := step_keeps_cfg_and_rom h
  exact ⟨step_keeps_legal hlegal h, step_next_fault h, hcfg'.trans hcfg,
    fun addr haddr => (hrom' addr haddr).trans (hrom addr haddr)⟩

/-! ### The host's operations (rules R34, R105 and R250) -/

/-- A constructed core is legal: each list is cut to its region, so every byte it places has storage. -/
theorem construct_legal (ram rom : List Byte) (pol : UndefPolicy) (hrom : rom ≠ []) :
    Legal (construct ram rom pol) := by
  have hlen : 1 ≤ rom.length := List.length_pos_iff.mpr hrom
  have hram_len : (ram.take 0x800).length ≤ 0x800 := List.length_take_le ..
  have hrom_len : (rom.take 0x8000).length ≤ 0x8000 := List.length_take_le ..
  refine ⟨rfl, ?nonempty, hrom_len, Memory.load_wf _ _ (Memory.load_wf _ _ rfl), ?stored⟩
  case nonempty =>
    show 1 ≤ (rom.take 0x8000).length
    rw [List.length_take]
    omega
  case stored =>
    refine Memory.load_stored (fun k hlow hhigh => ?romByte) (Memory.load_stored (fun k hlow hhigh => ?ramByte) rfl)
    case romByte =>
      have hk : (BitVec.ofNat 16 k).toNat = k := Nat.mod_eq_of_lt (by omega)
      refine ⟨by omega, ?_⟩
      rw [hasStorage_of_rom _ (region_eq_rom.mpr (by omega)), romHas_iff, hk]
      exact hhigh
    case ramByte =>
      have hk : (BitVec.ofNat 16 k).toNat = k := Nat.mod_eq_of_lt (by omega)
      exact ⟨by omega, hasStorage_of_ram _ (region_eq_ram.mpr (by omega))⟩

theorem resetCore_keeps_legal {s t : State} (hs : Legal s) (h : resetCore s = .next t) : Legal t := by
  obtain ⟨w, u, -, rfl⟩ := resetCore_next_cases h
  exact hs.of_memChangesInRam rfl rfl (.inl rfl)

theorem recordFault_keeps_legal {s : State} (hs : Legal s) (f : Fault) : Legal (recordFault s f) :=
  hs.of_memChangesInRam hs.reserved rfl (.inl rfl)

/-- What the host sees of a step: the state and the count of a completed one, or the recorded fault. -/
theorem hostStep_cases {s u : State} {r : Except Fault Nat} (h : hostStep s = some (u, r)) :
    (∃ n, step s = .next u ∧ u.cycles = some n ∧ r = .ok n) ∨
    (∃ f, step s = .fault f ∧ u = recordFault s f ∧ r = .error f) := by
  unfold hostStep at h
  split at h
  · rename_i t hstep
    split at h
    · rename_i n hn
      cases h
      exact .inl ⟨n, hstep, hn, rfl⟩
    · cases h
  · rename_i f hstep
    cases h
    exact .inr ⟨f, hstep, rfl, rfl⟩
  · cases h

theorem hostStep_keeps_legal {s u : State} {r : Except Fault Nat} (hs : Legal s) (h : hostStep s = some (u, r)) :
    Legal u := by
  obtain ⟨_, hstep, -, -⟩ | ⟨f, -, rfl, -⟩ := hostStep_cases h
  · exact step_keeps_legal hs hstep
  · exact recordFault_keeps_legal hs f

/-- No step follows a recorded fault (rule R103). -/
theorem step_of_fault {s : State} {f : Fault} (h : s.fault = some f) : step s = .refused .alreadyFaulted := by
  simp only [step, h]

theorem hostStep_of_fault {s : State} {f : Fault} (h : s.fault = some f) : hostStep s = none := by
  simp only [hostStep, step_of_fault h]

/-! ### The statements about legal states and the host's step -/

/-- Settles O40: a step writes no byte outside RAM, no configuration and no reserved flag. -/
theorem stepKeepsLegal : Obligations.StepKeepsLegal := fun _ _ => step_keeps_legal

/-- Settles O43: by induction on the length of the run, with the run's first state fixed. -/
theorem runsKeepLegalAndRom : Obligations.RunsKeepLegalAndRom := by
  intro n s t hs hrun h
  have hstart : GoodSince s s := ⟨hs, hrun, rfl, fun _ _ => rfl⟩
  exact RunsTo.keeps (fun _ _ => step_keeps_goodSince) hstart h

/-- Settles O41: the memory list is empty and the image full-size. -/
theorem resetStateIsLegal : Obligations.ResetStateIsLegal := ⟨rfl, by decide, by decide, rfl, rfl⟩

/-- Settles O42: construction lists only bytes with storage; reset and a recorded fault leave the memory list. -/
theorem hostOperationsKeepLegal : Obligations.HostOperationsKeepLegal :=
  ⟨construct_legal, fun _ _ => resetCore_keeps_legal, fun _ _ _ => hostStep_keeps_legal⟩

/-- Settles O11: the record alone tells the state after a fault from the step's start, and a step looks at it first. -/
theorem noStepAfterFault : Obligations.NoStepAfterFault := by
  refine ⟨fun s f hf => ⟨step_of_fault hf, hostStep_of_fault hf⟩, fun s u f h => ?_⟩
  obtain ⟨_, -, -, hr⟩ | ⟨f', hstep, rfl, hr⟩ := hostStep_cases h
  · cases hr
  · cases hr
    exact ⟨rfl, hstep, hostStep_of_fault (recordFault_fault s f)⟩

end Sys2Proof.Machine
end

section
/-! SUPPORT. The order of a step's accesses, the causes of its faults, and when it completes. -/

namespace Sys2Proof.Machine

/-! ### The faults of an instruction fetch (rules R221 and R225) -/

/-- A faulting fetch is at an address that neither is stored nor is the stub's. -/
theorem fetch8_error_unmapped {s : State} {pc0 : Word} {f : Fault} (h : fetch8 s pc0 = .error f) :
    hasStorage s.cfg s.pc = false ∧ region s.pc ≠ .io := by
  cases hread : busRead s s.pc .fetch (some pc0) with
  | error g => exact (busRead_error_cases hread).2
  | ok r => cases (fetch8_of_busRead_ok hread).symm.trans h

theorem fetch8_ok_cfg {s t : State} {pc0 : Word} {b : Byte} (h : fetch8 s pc0 = .ok (b, t)) : t.cfg = s.cfg := by
  rw [fetch8_ok h]

/-- A faulting instruction fetch faults at one of its at most three bytes. -/
theorem fetchInstr_error_cases {s : State} {f : Fault} (h : fetchInstr s = .error f) :
    ∃ addr, f = fetchFault addr s.pc ∧ (addr = s.pc ∨ addr = s.pc + 1#16 ∨ addr = s.pc + 2#16) ∧
      hasStorage s.cfg addr = false ∧ region addr ≠ .io := by
  cases hop : fetch8 s s.pc with
  | error g =>
    cases (fetchInstr_of_opcode_error hop).symm.trans h
    exact ⟨s.pc, fetch8_error_eq_fetchFault hop, .inl rfl, fetch8_error_unmapped hop⟩
  | ok r =>
    obtain ⟨op, t⟩ := r
    have hpc : t.pc = s.pc + 1#16 := fetch8_ok_pc hop
    have hcfg : t.cfg = s.cfg := fetch8_ok_cfg hop
    cases hform : decodeOpcode s.cfg.undefPolicy op with
    | whole i => cases (fetchInstr_of_whole_ok hop hform).symm.trans h
    | byte mk =>
      cases hb : fetch8 t s.pc with
      | ok r => cases (fetchInstr_of_byte_ok hop hform hb).symm.trans h
      | error g =>
        cases (fetchInstr_of_byte_error hop hform hb).symm.trans h
        exact ⟨t.pc, fetch8_error_eq_fetchFault hb, .inr (.inl hpc), hcfg ▸ fetch8_error_unmapped hb⟩
    | word mk =>
      cases hlo : fetch8 t s.pc with
      | error g =>
        cases (fetchInstr_of_word_error_low hop hform hlo).symm.trans h
        exact ⟨t.pc, fetch8_error_eq_fetchFault hlo, .inr (.inl hpc), hcfg ▸ fetch8_error_unmapped hlo⟩
      | ok r =>
        obtain ⟨l, u⟩ := r
        have hpc' : u.pc = s.pc + 2#16 := by rw [fetch8_ok_pc hlo, hpc, BitVec.add_assoc]; rfl
        have hcfg' : u.cfg = s.cfg := (fetch8_ok_cfg hlo).trans hcfg
        cases hhi : fetch8 u s.pc with
        | ok r => cases (fetchInstr_of_word_ok hop hform hlo hhi).symm.trans h
        | error g =>
          cases (fetchInstr_of_word_error_high hop hform hlo hhi).symm.trans h
          exact ⟨u.pc, fetch8_error_eq_fetchFault hhi, .inr (.inr hpc'), hcfg' ▸ fetch8_error_unmapped hhi⟩

/-! ### When an instruction completes (rules R141, R144 and R203) -/

section
variable {i : Instr} {s : State}

theorem exec_not_refused (r : Refusal) : exec i s ≠ .refused r := by
  cases i with
  | ldaAbsX base =>
    rw [exec, execLdaAbsX]
    cases busRead (consume .absoluteX s) (addx16 base s.x) .read (some s.pc) <;> simp [orFault]
  | staAbs ea =>
    rw [exec, execStaAbs]
    cases busWrite (consume .absolute s) ea s.a s.pc <;> simp [orFault]
  | bneRel off => simp [exec_bneRel]
  | jmpAbs | sei | dey | txs | ldyImm | ldxImm | ldaImm | inx | nop | unimplemented => nofun

/-- An instruction faults exactly in a data access that the map refuses, or as the raising form. -/
theorem exec_faults_iff : (∃ f, exec i s = .fault f) ↔
    (∃ base, i = .ldaAbsX base ∧ peek s (base + s.x.zeroExtend 16) = none ∧
      region (base + s.x.zeroExtend 16) ≠ .io) ∨
    (∃ ea, i = .staAbs ea ∧ region ea ≠ .ram ∧ region ea ≠ .io) ∨
    (∃ op, i = .unimplemented op) := by
  constructor
  · rintro ⟨f, h⟩
    obtain ⟨base, rfl, hread⟩ | ⟨ea, rfl, hwrite⟩ | ⟨op, rfl, -⟩ := exec_fault_cases h
    · obtain ⟨-, hstore, hio⟩ := busRead_error_cases hread
      exact .inl ⟨base, rfl, peek_eq_none_iff.mpr hstore, hio⟩
    · obtain ⟨hr, -⟩ | ⟨hr, -⟩ := busWrite_error_cases hwrite <;> exact .inr (.inl ⟨ea, rfl, by simp [hr]⟩)
    · exact .inr (.inr ⟨op, rfl⟩)
  · rintro (⟨base, rfl, hnone, hio⟩ | ⟨ea, rfl, hram, hio⟩ | ⟨op, rfl⟩)
    · exact ⟨_, exec_ldaAbsX_of_busRead_error (busRead_of_peek_none .read _ hnone hio)⟩
    · cases hr : region ea with
      | ram => exact absurd hr hram
      | io => exact absurd hr hio
      | rom => exact ⟨_, exec_staAbs_of_busWrite_error (busWrite_of_rom _ s.a s.pc hr)⟩
      | unmapped => exact ⟨_, exec_staAbs_of_busWrite_error (busWrite_of_unmapped _ s.a s.pc hr)⟩
    · exact ⟨_, exec_unimplemented op s⟩

theorem exec_completes_iff_not_faults : (∃ t, exec i s = .next t) ↔ ¬ ∃ f, exec i s = .fault f := by
  cases h : exec i s with
  | next t => simp
  | fault f => simp
  | refused r => exact absurd h (exec_not_refused r)

end

/-! ### Reset reads the low vector byte first (rules R53 and R225) -/

theorem readWord_of_low_error {s : State} {addr : Word} {acc : Access} {pc0 : Option Word} {f : Fault}
    (h : busRead s addr acc pc0 = .error f) : readWord s addr acc pc0 = .error f := by
  simp only [readWord, h]

/-! ### The statements about a step's faults and its completion -/

/-- Settles O8: each byte's fetch fault is the instruction fetch's, whose stages come in this order. -/
theorem stepFaultsInAccessOrder : Obligations.StepFaultsInAccessOrder := by
  refine ⟨fun s hrun => ⟨fun f hop => ?opcode, fun op t hop => ⟨fun hundef hpol => ?undefined,
    fun mk f hform hb => ?byte, fun mk f hform hlo => ?low, fun mk l u f hform hlo hhi => ?high⟩⟩,
    fun s f hlo => resetCore_of_readWord_error (readWord_of_low_error hlo)⟩
  case opcode => exact step_of_fetchInstr_error hrun (fetchInstr_of_opcode_error hop)
  case undefined => exact step_of_undefined_fault hrun hpol hundef hop
  case byte => exact step_of_fetchInstr_error hrun (fetchInstr_of_byte_error hop hform hb)
  case low => exact step_of_fetchInstr_error hrun (fetchInstr_of_word_error_low hop hform hlo)
  case high => exact step_of_fetchInstr_error hrun (fetchInstr_of_word_error_high hop hform hlo hhi)

/-- Settles O44: a fault is the instruction fetch's, a data access's of the instruction fetched, or the raising
form's. -/
theorem stepFaultsAreAccountedFor : Obligations.StepFaultsAreAccountedFor := by
  intro s f h
  obtain ⟨hrun, hfetch | ⟨i, u, hfetch, hexec⟩⟩ := step_fault_cases h
  · obtain ⟨addr, rfl, haddr, hunmapped⟩ := fetchInstr_error_cases hfetch
    exact ⟨hrun, rfl, haddr, hunmapped⟩
  · obtain ⟨base, rfl, hread⟩ | ⟨ea, rfl, hwrite⟩ | ⟨op, rfl, rfl⟩ := exec_fault_cases hexec
    · obtain ⟨rfl, hstore, hio⟩ := busRead_error_cases hread
      exact ⟨hrun, rfl, hstore, hio, base, u, hfetch, rfl⟩
    · obtain ⟨hrom, rfl⟩ | ⟨hhole, rfl⟩ := busWrite_error_cases hwrite
      · exact ⟨hrun, rfl, region_eq_rom.mp hrom, u, hfetch⟩
      · exact ⟨hrun, rfl, hhole, u, hfetch⟩
    · obtain ⟨hpol, hundef, hpc, hop⟩ := step_fault_unimplementedOpcode h
      exact ⟨hrun, hpc, hpol, hundef, hop⟩

/-- Settles O56: the step is the stored instruction's meaning, which completes unless it faults. -/
theorem stepCompletesWhereBytesAreStored : Obligations.StepCompletesWhereBytesAreStored := by
  intro s i hrun hwf hstored
  rw [stepRunsStoredInstruction s i hrun hwf hstored, exec_completes_iff_not_faults, exec_faults_iff]

end Sys2Proof.Machine
end

section
/-! SUPPORT. What construction places, what reset needs and leaves, the snapshot, and the operations on numbers. -/

namespace Sys2Proof.Machine

/-! ### A constructed core (rules R34, R55 and R56) -/

section
variable (ram rom : List Byte) (pol : UndefPolicy)

theorem peek_construct_ram (hram : ram.length ≤ 0x800) {k : Nat} (hk : k < ram.length) :
    peek (construct ram rom pol) (BitVec.ofNat 16 k) = some ram[k] := by
  have haddr : (BitVec.ofNat 16 k).toNat = k := Nat.mod_eq_of_lt (by omega)
  have hregion : region (BitVec.ofNat 16 k) = .ram := region_eq_ram.mpr (by omega)
  have hinside := Memory.read_load_inside (m := []) (base := 0) ram rfl hk
  rw [Nat.zero_add] at hinside
  rw [peek, if_pos (hasStorage_of_ram _ hregion), haddr, construct, Memory.read_load_outside _ (.inl (by omega)),
    List.take_of_length_le hram, hinside]

theorem hasStorage_construct_rom (hrom : rom.length ≤ 0x8000) {k : Nat} (hk : k < 0x8000) :
    hasStorage (construct ram rom pol).cfg (BitVec.ofNat 16 (0x8000 + k)) = true ↔ k < rom.length := by
  have haddr : (BitVec.ofNat 16 (0x8000 + k)).toNat = 0x8000 + k := Nat.mod_eq_of_lt (by omega)
  have hlen : (construct ram rom pol).cfg.romLen = rom.length := by
    rw [construct, List.take_of_length_le hrom]
  rw [hasStorage_of_rom _ (region_eq_rom.mpr (by omega)), romHas_iff, haddr, hlen, Nat.add_lt_add_iff_left]

theorem peek_construct_rom (hrom : rom.length ≤ 0x8000) {k : Nat} (hk : k < rom.length) :
    peek (construct ram rom pol) (BitVec.ofNat 16 (0x8000 + k)) = some rom[k] := by
  have haddr : (BitVec.ofNat 16 (0x8000 + k)).toNat = 0x8000 + k := Nat.mod_eq_of_lt (by omega)
  have hstore := (hasStorage_construct_rom ram rom pol hrom (by omega)).mpr hk
  rw [peek, if_pos hstore, haddr, construct, List.take_of_length_le hrom,
    Memory.read_load_inside rom (Memory.load_wf _ _ rfl) hk]

theorem peek_construct_past_rom (hrom : rom.length ≤ 0x8000) {k : Nat} (hpast : rom.length ≤ k) (hk : k < 0x8000) :
    peek (construct ram rom pol) (BitVec.ofNat 16 (0x8000 + k)) = none := by
  rw [peek_eq_none_iff, ← Bool.not_eq_true, hasStorage_construct_rom ram rom pol hrom hk]
  omega

end

/-- Blank lists leave the memory list empty, so such a core is the reset state already. -/
theorem construct_blank :
    construct (List.replicate 0x800 0#8) (List.replicate 0x8000 0#8) .fault = State.reset := by
  have hblank (n : Nat) : List.replicate n (0#8 : Byte) = List.replicate n unlistedByte := rfl
  simp only [construct, List.take_replicate, Nat.min_self, hblank, Memory.load_blank, List.length_replicate]
  rfl

/-! ### Which bytes reset needs (rule R251) -/

section
variable {s : State}

theorem readWord_of_high_error {addr : Word} {acc : Access} {pc0 : Option Word} {l : Byte} {f : Fault}
    (hl : peek s addr = some l) (h : busRead s (addr + 1#16) acc pc0 = .error f) :
    readWord s addr acc pc0 = .error f := by
  simp only [readWord, busRead_of_peek acc pc0 hl, h]

/-- In the ROM window an address of the image is stored. -/
theorem peek_of_romHas {addr : Word} (hr : region addr = .rom) (hin : addr.toNat < 0x8000 + s.cfg.romLen) :
    peek s addr = some (Memory.read s.mem addr.toNat) := by
  rw [peek, if_pos ((hasStorage_of_rom s.cfg hr).trans (romHas_iff.mpr hin))]

theorem busRead_past_image {addr : Word} (acc : Access) (pc0 : Option Word) (hr : region addr = .rom)
    (hout : 0x8000 + s.cfg.romLen ≤ addr.toNat) : busRead s addr acc pc0 = .error (.unmappedAddress addr acc pc0) :=
  busRead_of_rom_past_image s acc pc0 hr (decide_eq_false (by omega))

end

/-! ### The statements about construction and reset -/

/-- Settles O18: each list is read back where it was loaded, and past the image there is no storage. -/
theorem constructionPlacesTheImages : Obligations.ConstructionPlacesTheImages :=
  fun ram rom pol hram _ hrom => ⟨fun _ hk => peek_construct_ram ram rom pol hram.le hk,
    fun _ hk => peek_construct_rom ram rom pol hrom hk,
    fun _ hpast hk => peek_construct_past_rom ram rom pol hrom hpast hk⟩

/-- Settles O50: the fields are construction's own, and address 0x0000 is in RAM. -/
theorem powerOnState : Obligations.PowerOnState := by
  intro ram rom pol s
  have hstore : hasStorage s.cfg 0x0000#16 = true := hasStorage_of_ram s.cfg rfl
  exact ⟨rfl, rfl, rfl, rfl, rfl, rfl, rfl, rfl, fetch8_of_busRead_ok (busRead_of_hasStorage .fetch _ hstore)⟩

/-- Settles O51: the blank core's vector holds two unlisted bytes, which are zero. -/
theorem resetStateIsResetOfBlankCore : Obligations.ResetStateIsResetOfBlankCore := by
  rw [Obligations.ResetStateIsResetOfBlankCore, construct_blank]
  exact resetCore_eq_next_iff.mpr ⟨0#8, 0#8, rfl, rfl, rfl⟩

/-- Settles O47: what reset leaves is `resetTo` of its start. -/
theorem resetTouchesNothingElse : Obligations.ResetTouchesNothingElse := by
  intro s t h
  obtain ⟨_, _, -, -, rfl⟩ := resetCore_eq_next_iff.mp h
  exact ⟨rfl, rfl, rfl, rfl, rfl⟩

/-- Settles O49: the vector read faults at the first of its two bytes past the image. -/
theorem resetNeedsTheVectorBytes : Obligations.ResetNeedsTheVectorBytes := by
  intro s
  have hlow : region 0xFFFC#16 = .rom := rfl
  have hhigh : region 0xFFFD#16 = .rom := rfl
  have hlowNat : (0xFFFC#16).toNat = 0xFFFC := rfl
  have hhighNat : (0xFFFD#16).toNat = 0xFFFD := rfl
  refine ⟨fun hlen => ?neither, fun hlen => ?lowOnly, fun hlen => ?both⟩
  case neither =>
    have hread := busRead_past_image (s := s) .read none hlow (by omega)
    exact resetCore_of_readWord_error (readWord_of_low_error hread)
  case lowOnly =>
    have hl := peek_of_romHas (s := s) hlow (by omega)
    have hread := busRead_past_image (s := s) .read none hhigh (by omega)
    exact resetCore_of_readWord_error (readWord_of_high_error hl hread)
  case both =>
    have hl := peek_of_romHas (s := s) hlow (by omega)
    have hh := peek_of_romHas (s := s) hhigh (by omega)
    exact ⟨_, resetCore_eq_next_iff.mpr ⟨_, _, hl, hh, rfl⟩, rfl⟩

/-! ### The statements about the snapshot and the alu_core -/

/-- Settles O53: the snapshot is a case split on the fault record, and sets R in the free values. -/
theorem inspectRegistersIsTheRegisterFile : Obligations.InspectRegistersIsTheRegisterFile :=
  ⟨fun s hrun => by simp only [inspectRegisters, hrun], fun s f hf => by simp only [inspectRegisters, hf]⟩

/-- Settles O54: the byte is C appended to Z appended to the flags before them, a bit at a time. -/
theorem flagsPackInListOrder : Obligations.FlagsPackInListOrder := by
  intro p
  simp only [packFlags, BitVec.append_ofBool, BitVec.getLsbD_concat_zero, BitVec.getLsbD_concat_succ]
  simp

theorem addrel16_toNat (base : Word) (off : Byte) :
    ((addrel16 base off).toNat : Int) = ((base.toNat : Int) + off.toInt) % 65536 := by
  rw [addrel16, BitVec.toNat_add, BitVec.signExtend, BitVec.toNat_ofInt]
  omega

/-- Settles O55: each operation is an addition or a subtraction of words. -/
theorem aluOperationsAreModular : Obligations.AluOperationsAreModular := by
  refine ⟨fun v => ?inc, fun v => ?dec, rfl, fun base x => ?addx, addrel16_toNat⟩
  case inc => exact BitVec.toNat_add v 1#8
  case dec =>
    have hlt : v.toNat < 256 := v.isLt
    rw [dec8, BitVec.toNat_sub, show (1#8).toNat = 1 from rfl]
    omega
  case addx =>
    have hx : (x.zeroExtend 16).toNat = x.toNat := BitVec.toNat_setWidth_of_le (by decide)
    rw [addx16, BitVec.toNat_add, hx]

end Sys2Proof.Machine
end
